-- ==== Sys2Proof/Word.lean ====
section
/-!
DEFINITION. The widths of 00_scope.md rule R6 and the types of the values MFHD treats as bits.
-/

namespace Sys2Proof

/-- `REG_W`: the width of every host register (00 R6). -/
abbrev regW : Nat := 32

/-- `ADDR_W`: the width of a buffer offset and of BUF_LEN (00 R6). -/
abbrev addrW : Nat := 32

/-- `CUR_W`: the width of the scan cursor (00 R6). -/
abbrev curW : Nat := 33

/-- A host register, a header word, a buffer offset. -/
abbrev Word := BitVec 32

/-- One byte of the buffer (20 R60). -/
abbrev Byte := BitVec 8

/-- The scan cursor `S.cur` (10 R40). -/
abbrev Cursor := BitVec 33

end Sys2Proof
end

