-- ==== Sys2Proof/Config.lean ====
section
/-!
DEFINITION. The parameters of 00_scope.md rule R6 that an implementation fixes, as types, and the
constants the spec leaves open, as free values. The tables' contents are in Machine/Tables.lean.
-/

namespace Sys2Proof

/-- The parameter `ID3_UNIT` (00 R4, R6): whether the TAGSIZE command exists. -/
inductive Id3Unit where
  | present
  | absent
deriving DecidableEq, Repr

/-- One row of BITRATE_LUT, its five columns in kbps, 9 bits each (10 R43). -/
structure BitrateRow where
  v1l1 : BitVec 9
  v1l2 : BitVec 9
  v1l3 : BitVec 9
  v2l1 : BitVec 9
  v2l23 : BitVec 9
deriving DecidableEq, Repr

/-- BITRATE_LUT: 15 rows, indexed by bitrate index 0 to 14; index 15 has no row (10 R43). -/
abbrev BitrateLut := Vector BitrateRow 15

/-- What one MFHD is built with and never changes: the bitrate table (a parameter, 40 R125) and
whether the ID3v2 unit is there. -/
structure Params where
  bitrateLut : BitrateLut
  id3Unit : Id3Unit
deriving DecidableEq, Repr

/-- FREE VALUE (log 10). The byte at offset `o` of the buffer number `epoch` when nobody filled it:
"MFHD reads whatever bytes are there" (60 R203; 93 I-14 "any value"). -/
opaque Config.unfilledByte (epoch o : Nat) : Byte

/-- FREE VALUE (log 15). `MFHD_BASE`, the platform address of the register file: OPEN (92 OPEN-1). -/
opaque Config.mfhdBase : Nat

/-- FREE VALUE (log 15). `BUF_BASE`, the platform address of the buffer: OPEN (92 OPEN-2). -/
opaque Config.bufBase : Nat

end Sys2Proof
end

