-- ==== Sys2Proof/Syntax.lean ====
section
/-!
DEFINITION. The instructions: one constructor for each of the 18 rows of spec/opcode_table.json.
Two word spaces meet here (log 4): command words, which the host writes to CMD (30 R95), and header
words, which the FSM reads from the buffer (30 R80). Every constructor carries every bit of its word
that its row does not fix, the ignored ones too, so that no bit of an encoding is dropped.
-/

namespace Sys2Proof

/-- The fields D to M of a header-class row of the table (30 R80): everything below SYNC, VER, LAY. -/
structure HdrFields where
  prot : BitVec 1
  bri : BitVec 4
  sri : BitVec 2
  pad : BitVec 1
  unused : BitVec 1
  mode : BitVec 2
  modex : BitVec 2
  copy : BitVec 1
  orig : BitVec 1
  emph : BitVec 2
deriving DecidableEq, Repr

/-- The 18 rows of spec/opcode_table.json. `ign` is a command word's ignored bits 31:3 (30 R95). -/
inductive Instr where
  /-- PARSE (41 R162). -/
  | parse (ign : BitVec 29)
  /-- LOCATE (41 R163). -/
  | locate (ign : BitVec 29)
  /-- ADVANCE (41 R164). -/
  | advance (ign : BitVec 29)
  /-- TAGSIZE (42 R190). -/
  | tagsize (ign : BitVec 29)
  /-- HDR.V1.L1 (40 R141): VER '11', LAY '11'. -/
  | hdrV1L1 (f : HdrFields)
  /-- HDR.V1.L2: VER '11', LAY '10'. -/
  | hdrV1L2 (f : HdrFields)
  /-- HDR.V1.L3: VER '11', LAY '01'. -/
  | hdrV1L3 (f : HdrFields)
  /-- HDR.V2.L1: VER '10', LAY '11'. -/
  | hdrV2L1 (f : HdrFields)
  /-- HDR.V2.L2: VER '10', LAY '10'. -/
  | hdrV2L2 (f : HdrFields)
  /-- HDR.V2.L3: VER '10', LAY '01'. -/
  | hdrV2L3 (f : HdrFields)
  /-- HDR.V2_5.L1: VER '00', LAY '11'. -/
  | hdrV25L1 (f : HdrFields)
  /-- HDR.V2_5.L2: VER '00', LAY '10'. -/
  | hdrV25L2 (f : HdrFields)
  /-- HDR.V2_5.L3: VER '00', LAY '01'. -/
  | hdrV25L3 (f : HdrFields)
  /-- HDR.SYNC_REQUIRED (40 R110): "a word NOT matching this row is rejected (no sync)". The
  instruction is the whole word that lacks the sync (log 5). -/
  | hdrSyncRequired (w : Word)
  /-- HDR.RSV_VERSION (40 R112): VER '01'; `rest` is bits 18:0. -/
  | hdrRsvVersion (rest : BitVec 19)
  /-- HDR.RSV_LAYER (40 R113): LAY '00'; `ver` is bits 20:19, `rest` bits 16:0. -/
  | hdrRsvLayer (ver : BitVec 2) (rest : BitVec 17)
  /-- HDR.BAD_BITRATE_INDEX (40 R124): BRI '1111'; `rest` is bits 11:0. -/
  | hdrBadBitrateIndex (ver : BitVec 2) (lay : BitVec 2) (prot : BitVec 1) (rest : BitVec 12)
  /-- HDR.RSV_SRATE_INDEX (40 R127): SRI '11'; `rest` is bits 9:0. -/
  | hdrRsvSrateIndex (ver : BitVec 2) (lay : BitVec 2) (prot : BitVec 1) (bri : BitVec 4)
      (rest : BitVec 10)
deriving DecidableEq, Repr

/-- The names of the host registers (10 R20); `reserved k` is the reserved offset 0x30 + 4 k (R36). -/
inductive Reg where
  | cmd
  | status
  | bufLen
  | argStart
  | argEnd
  | hdrOffset
  | hdrWord
  | hdrFields
  | hdrBitrate
  | hdrSrate
  | hdrFrameSize
  | tagSize
  | reserved (k : Fin 4)
deriving DecidableEq, Repr

/-- Where a 32-bit word is presented to MFHD: the CMD register or the buffer port (log 4). -/
inductive Port where
  | cmd
  | buffer
deriving DecidableEq, Repr

end Sys2Proof
end

