-- ==== Sys2Proof/Machine/Header.lean ====
section
/-!
DEFINITION. The header value (00 R10, 40 R140): `INVALID`, or `VALID` with the fields of the source's
header record, and the enumerations its fields take (00 R11).
-/

namespace Sys2Proof.Machine

/-- MPEG version (00 R11, 40 R112). -/
inductive Version where
  | v1
  | v2
  | v2_5
deriving DecidableEq, Repr

/-- Layer (00 R11, 40 R113). -/
inductive Layer where
  | l1
  | l2
  | l3
deriving DecidableEq, Repr

/-- Channel mode (00 R11, 40 R121). -/
inductive ChannelMode where
  | stereo
  | jointStereo
  | dualChannel
  | mono
deriving DecidableEq, Repr

/-- Emphasis (00 R11, 40 R123). -/
inductive Emphasis where
  | none
  | ms5015
  | ccittJ17
  | reserved
deriving DecidableEq, Repr

/-- What the mode-extension decoder gives (40 R122). -/
structure ModeExtension where
  intensity : BitVec 1
  ms : BitVec 1
  lowerBand : BitVec 5
  upperBand : BitVec 5
deriving DecidableEq, Repr

/-- The fields of a `VALID` header, with the widths of 40 R140. -/
structure HeaderRecord where
  offset : Word
  word : Word
  version : Version
  layer : Layer
  crc : BitVec 1
  bitrate : BitVec 9
  srate : BitVec 16
  padded : BitVec 1
  chmode : ChannelMode
  modeExt : ModeExtension
  copyright : BitVec 1
  original : BitVec 1
  emphasis : Emphasis
  frameSize : BitVec 16
deriving DecidableEq, Repr

/-- A header value: a tagged variant, as the source recommends (00 R10). -/
inductive Header where
  | invalid
  | valid (h : HeaderRecord)
deriving DecidableEq, Repr

/-- The result header registers HDR_OFFSET to HDR_FRAMESIZE (10 R20), each with the bits that do not
always read 0 (10 R27 to R29, R32 to R34). -/
structure ResultRegs where
  offset : Word
  word : Word
  fields : BitVec 25
  bitrate : BitVec 9
  srate : BitVec 16
  frameSize : BitVec 16
deriving DecidableEq, Repr

end Sys2Proof.Machine
end

