-- ==== Sys2Proof/Machine/Tables.lean ====
section
/-!
DEFINITION. The two read-only tables (10 R43): the default BITRATE_LUT (40 R125), what a legal
BITRATE_LUT is (40 R126, R129), and SRATE_LUT (40 R128).
-/

namespace Sys2Proof.Machine

/-- The default contents of BITRATE_LUT, in kbps, columns V1L1 V1L2 V1L3 V2L1 V2L23 (40 R125). The
entries R126 does not fix come from general knowledge, as the spec says (log 8). -/
def defaultBitrateLut : BitrateLut :=
  #v[⟨0, 0, 0, 0, 0⟩,
     ⟨32, 32, 32, 32, 8⟩,
     ⟨64, 48, 40, 48, 16⟩,
     ⟨96, 56, 48, 56, 24⟩,
     ⟨128, 64, 56, 64, 32⟩,
     ⟨160, 80, 64, 80, 40⟩,
     ⟨192, 96, 80, 96, 48⟩,
     ⟨224, 112, 96, 112, 56⟩,
     ⟨256, 128, 112, 128, 64⟩,
     ⟨288, 160, 128, 144, 80⟩,
     ⟨320, 192, 160, 160, 96⟩,
     ⟨352, 224, 192, 176, 112⟩,
     ⟨384, 256, 224, 192, 128⟩,
     ⟨416, 320, 256, 224, 144⟩,
     ⟨448, 384, 320, 256, 160⟩]

/-- The entry of a row in the column that version and layer select (40 R124 `col`). MPEG 2.5 shares
both MPEG 2 columns. -/
def bitrateColumn (ver : Version) (lay : Layer) (row : BitrateRow) : BitVec 9 :=
  match ver, lay with
  | .v1, .l1 => row.v1l1
  | .v1, .l2 => row.v1l2
  | .v1, .l3 => row.v1l3
  | .v2, .l1 => row.v2l1
  | .v2, .l2 => row.v2l23
  | .v2, .l3 => row.v2l23
  | .v2_5, .l1 => row.v2l1
  | .v2_5, .l2 => row.v2l23
  | .v2_5, .l3 => row.v2l23

/-- Every entry of a row is at least 2; at most 511 holds by its width (40 R129). -/
def BitrateRow.atLeastTwo (row : BitrateRow) : Bool :=
  2 ≤ row.v1l1.toNat && 2 ≤ row.v1l2.toNat && 2 ≤ row.v1l3.toNat && 2 ≤ row.v2l1.toNat
    && 2 ≤ row.v2l23.toNat

/-- A BITRATE_LUT a model may take: the source-fixed entries (40 R126) and the constraint of R129. -/
def legalBitrateLut (t : BitrateLut) : Bool :=
  t[0] == ⟨0, 0, 0, 0, 0⟩ && t[10].v1l1 == 320 && t[1].v2l1 == 32 && t[1].v2l23 == 8
    && t.toList.tail.all BitrateRow.atLeastTwo

/-- SRATE_LUT, in Hz, row `j` and the column of the version; index 3 has no row (40 R127, R128). -/
def srateLut (ver : Version) (j : BitVec 2) : Option (BitVec 16) :=
  match ver with
  | .v1 => if j = 0#2 then some 44100 else if j = 1#2 then some 48000
      else if j = 2#2 then some 32000 else none
  | .v2 => if j = 0#2 then some 22050 else if j = 1#2 then some 24000
      else if j = 2#2 then some 16000 else none
  | .v2_5 => if j = 0#2 then some 11025 else if j = 1#2 then some 12000
      else if j = 2#2 then some 8000 else none

/-- The parameters of the spec's own MFHD: the default table, the ID3v2 unit present (00 R6). -/
def defaultParams : Params := { bitrateLut := defaultBitrateLut, id3Unit := .present }

end Sys2Proof.Machine
end

