-- ==== Sys2Proof/Machine/State.lean ====
section
/-!
DEFINITION. The state of one MFHD with its surroundings, as plain data: the register file (10 R20),
the FSM's internal state (10 R40), the parameters (00 R6, 10 R43), the buffer (20 R60), and the list
of events the host, the loading collaborator, the platform and the FSM's own turns still hold
(20 R73). INVENTORY.md lists every field with its rule and reset value.
-/

namespace Sys2Proof.Machine

/-- The FSM's states (10 R41). -/
inductive Fsm where
  /-- No command in progress. -/
  | idle
  /-- A PARSE, LOCATE or ADVANCE is in progress. -/
  | scan
  /-- A TAGSIZE is in progress. -/
  | tag
deriving DecidableEq, Repr

/-- One event at MFHD's boundary, or one turn given to the FSM (20 R73, log 1). -/
inductive Input where
  /-- The host writes `data` at a register offset, in an access of `width` bits (10 R21). -/
  | write (offset width : Nat) (data : Word)
  /-- The host reads a register offset, in an access of `width` bits (10 R21). -/
  | read (offset width : Nat)
  /-- The host polls STATUS until BUSY = 0 (30 R98). -/
  | wait
  /-- The FSM takes its step, if it has one (20 R73e). -/
  | fsm
  /-- The platform applies reset (70 R220). -/
  | reset
  /-- The loading collaborator hands over a buffer of `size` bytes, none of them filled (70 R222). -/
  | newBuffer (size : Word)
  /-- The loading collaborator stores one byte of the buffer (70 R222). -/
  | fill (offset : Word) (data : Byte)
deriving DecidableEq, Repr

/-- Buffer contents: (offset, byte) pairs, offsets strictly rising. An unlisted offset has no byte of
its own here; what the block then reads is said in Ops.lean (log 10). -/
abbrev Memory := List Host.Cell

structure State where
  /-- BITRATE_LUT and ID3_UNIT: constant (10 R43, 00 R6). -/
  params : Params
  /-- BUF_LEN (10 R24). -/
  bufLen : Word
  /-- ARG_START (10 R25). -/
  argStart : Word
  /-- ARG_END (10 R26). -/
  argEnd : Word
  /-- The result header, HDR_OFFSET to HDR_FRAMESIZE (10 R27 to R34). -/
  hdr : ResultRegs
  /-- TAG_SIZE (10 R35). -/
  tagSize : Word
  /-- STATUS.DONE (10 R23). -/
  done : Bool
  /-- STATUS.CMDERR (10 R23). -/
  cmdErr : Bool
  /-- S.fsm (10 R40). -/
  fsm : Fsm
  /-- S.cur (10 R40). -/
  cur : Cursor
  /-- S.lim (10 R40). -/
  lim : Word
  /-- S.len (10 R40). -/
  len : Word
  /-- The filled bytes of the buffer (20 R60). -/
  mem : Memory
  /-- How many bytes the buffer really holds (70 R230). -/
  bufSize : Word
  /-- The model's own (log 10): how many buffers have been handed over. -/
  bufEpoch : Nat
  /-- The model's own (log 1): the events still to come, the next one first. -/
  inputs : List Input
  /-- The model's own (log 18): the value the host's last register read returned (20 R73d). -/
  rdata : Word
deriving DecidableEq, Repr

/-- MFHD has no fault and no trap: "No behaviour is a `fault`" (93 section 1, 60 R200). The type has
no constructor, so no step can answer a fault (log 22). -/
inductive Fault
deriving DecidableEq, Repr

/-- Why the model gives a step no meaning: the spec's `refuse` cases (93 I-11 to I-13), each a host
that broke its duty. -/
inductive Refusal where
  /-- An instruction that has no meaning yet. No arm of `exec` raises it. -/
  | notModelled (mnemonic : String)
  /-- A register access that is not 32 bits wide, is misaligned, or lies outside 0x00 to 0x3C
  (10 R21a, 20 R66, 93 I-13). Raised by a host read or write. Safe: the spec gives it no meaning. -/
  | badRegisterAccess
  /-- A byte at an offset below S.len changed while BUSY = 1 (20 R72, 70 R225, 93 I-11). Raised by
  `newBuffer` and `fill`. Safe: the spec gives it no meaning. -/
  | bufferChangedWhileBusy
  /-- A command is accepted while BUF_LEN is larger than the buffer (70 R230, 93 I-12). Raised by the
  meanings of the four commands where they would latch BUF_LEN, and so by the host's write to CMD. Safe:
  the spec gives it no meaning (log 11). -/
  | bufLenAboveBuffer
  /-- A byte the buffer does not hold: one filled past its real end, raised by `fill`; or one read there,
  raised by the FSM's reads in a state whose latched length exceeds the buffer, which no run of the model
  from a state that meets its invariant reaches (log 11). Safe: the spec gives it no meaning (20 R61,
  70 R230). -/
  | outsideBuffer
deriving DecidableEq, Repr

/-- The register image of `INVALID` (10 R30). -/
def ResultRegs.zero : ResultRegs where
  offset := 0
  word := 0
  fields := 0
  bitrate := 0
  srate := 0
  frameSize := 0

/-- Right after reset (10 R50), with the default parameters, no buffer handed over (log 12) and no
event to come. -/
def State.reset : State where
  params := defaultParams
  bufLen := 0
  argStart := 0
  argEnd := 0
  hdr := .zero
  tagSize := 0
  done := false
  cmdErr := false
  fsm := .idle
  cur := 0
  lim := 0
  len := 0
  mem := []
  bufSize := 0
  bufEpoch := 0
  inputs := []
  rdata := 0

end Sys2Proof.Machine
end

