-- ==== Sys2Proof/Machine/Flags.lean ====
section
/-!
DEFINITION. MFHD's only flags, the four STATUS bits (10 R23, R46), the output level `done` (10 R48),
and the packing of HDR_FIELDS (10 R29, R31; 41 R170).
-/

namespace Sys2Proof.Machine

/-- STATUS.BUSY: `S.fsm != IDLE` (10 R23, R41). -/
def State.busy (s : State) : Bool := s.fsm != .idle

/-- HDR_FIELDS.VALID, bit 0 (10 R29). -/
def State.hdrValid (s : State) : Bool := s.hdr.fields.getLsbD 0

/-- STATUS.FOUND follows HDR_FIELDS.VALID at every moment (10 R23). -/
def State.found (s : State) : Bool := s.hdrValid

/-- The output level `done`: 1 exactly when STATUS.DONE = 1 (10 R48). -/
def State.doneLevel (s : State) : Bool := s.done

/-- What a read of STATUS returns (10 R23): BUSY, DONE, FOUND, CMDERR in bits 0 to 3. -/
def State.statusWord (s : State) : Word :=
  (0 : BitVec 28) ++ BitVec.ofBool s.cmdErr ++ BitVec.ofBool s.found ++ BitVec.ofBool s.done
    ++ BitVec.ofBool s.busy

/-- STATUS.CMDERR after a write of `v` to STATUS: bit 3 = 1 clears it, bit 3 = 0 leaves it (10 R23). -/
def cmdErrAfterWrite (v : Word) (e : Bool) : Bool := if v.getLsbD 3 then false else e

/-- The code of a version (10 R31). -/
def versionCode : Version → BitVec 25
  | .v1 => 0
  | .v2 => 1
  | .v2_5 => 2

/-- The code of a layer (10 R31). -/
def layerCode : Layer → BitVec 25
  | .l1 => 1
  | .l2 => 2
  | .l3 => 3

/-- The code of a channel mode (10 R31). -/
def chmodeCode : ChannelMode → BitVec 25
  | .stereo => 0
  | .jointStereo => 1
  | .dualChannel => 2
  | .mono => 3

/-- The code of an emphasis (10 R31). -/
def emphasisCode : Emphasis → BitVec 25
  | .none => 0
  | .ms5015 => 1
  | .ccittJ17 => 2
  | .reserved => 3

/-- HDR_FIELDS of a valid header: the fields shifted to their places and joined (41 R170, 10 R29). -/
def packFields (h : HeaderRecord) : BitVec 25 :=
  1 ||| versionCode h.version <<< 1 ||| layerCode h.layer <<< 3 ||| h.crc.setWidth 25 <<< 5
    ||| h.padded.setWidth 25 <<< 6 ||| chmodeCode h.chmode <<< 7 ||| h.copyright.setWidth 25 <<< 9
    ||| h.original.setWidth 25 <<< 10 ||| emphasisCode h.emphasis <<< 11
    ||| h.modeExt.intensity.setWidth 25 <<< 13 ||| h.modeExt.ms.setWidth 25 <<< 14
    ||| h.modeExt.lowerBand.setWidth 25 <<< 15 ||| h.modeExt.upperBand.setWidth 25 <<< 20

/-- The register image of a header value (41 R170; of `INVALID`, 10 R30). -/
def resultImage : Header → ResultRegs
  | .invalid => .zero
  | .valid h =>
    { offset := h.offset, word := h.word, fields := packFields h, bitrate := h.bitrate,
      srate := h.srate, frameSize := h.frameSize }

end Sys2Proof.Machine
end

