-- ==== Sys2Proof/WellFormed.lean ====
section
/-!
DEFINITION. Which instructions are the decoder's own reading of some word. The rows of the table
overlap: a class word is "still rejected if it also matches a reject row" (30 R90), and a word may
match several reject rows. An instruction is well formed when no check that stands earlier in the
order of 40_header_decode.md rule R111 claims its word (log 6).
-/

namespace Sys2Proof

/-- A class row's word is accepted only with BRI other than '1111' and SRI other than '11' (30 R87). -/
def HdrFields.wf (f : HdrFields) : Bool := f.bri != 0b1111#4 && f.sri != 0b11#2

/-- Well-formedness of an instruction, one line a constructor. -/
def Instr.wf : Instr → Bool
  | .parse _ => true
  | .locate _ => true
  | .advance _ => true
  | .tagsize _ => true
  | .hdrV1L1 f => f.wf
  | .hdrV1L2 f => f.wf
  | .hdrV1L3 f => f.wf
  | .hdrV2L1 f => f.wf
  | .hdrV2L2 f => f.wf
  | .hdrV2L3 f => f.wf
  | .hdrV25L1 f => f.wf
  | .hdrV25L2 f => f.wf
  | .hdrV25L3 f => f.wf
  | .hdrSyncRequired w => w.extractLsb' 21 11 != 0x7FF#11
  | .hdrRsvVersion _ => true
  | .hdrRsvLayer ver _ => ver != 0b01#2
  | .hdrBadBitrateIndex ver lay _ _ => ver != 0b01#2 && lay != 0b00#2
  | .hdrRsvSrateIndex ver lay _ bri _ => ver != 0b01#2 && lay != 0b00#2 && bri != 0b1111#4

/-- Whether an instruction is a command word (format CMD32) rather than a header word (HDR32). -/
def Instr.isCommand : Instr → Bool
  | .parse _ => true
  | .locate _ => true
  | .advance _ => true
  | .tagsize _ => true
  | .hdrV1L1 _ => false
  | .hdrV1L2 _ => false
  | .hdrV1L3 _ => false
  | .hdrV2L1 _ => false
  | .hdrV2L2 _ => false
  | .hdrV2L3 _ => false
  | .hdrV25L1 _ => false
  | .hdrV25L2 _ => false
  | .hdrV25L3 _ => false
  | .hdrSyncRequired _ => false
  | .hdrRsvVersion _ => false
  | .hdrRsvLayer _ _ => false
  | .hdrBadBitrateIndex _ _ _ _ => false
  | .hdrRsvSrateIndex _ _ _ _ _ => false

/-- Whether an instruction is one of the nine header classes of 30 R90. -/
def Instr.isClass : Instr → Bool
  | .parse _ => false
  | .locate _ => false
  | .advance _ => false
  | .tagsize _ => false
  | .hdrV1L1 _ => true
  | .hdrV1L2 _ => true
  | .hdrV1L3 _ => true
  | .hdrV2L1 _ => true
  | .hdrV2L2 _ => true
  | .hdrV2L3 _ => true
  | .hdrV25L1 _ => true
  | .hdrV25L2 _ => true
  | .hdrV25L3 _ => true
  | .hdrSyncRequired _ => false
  | .hdrRsvVersion _ => false
  | .hdrRsvLayer _ _ => false
  | .hdrBadBitrateIndex _ _ _ _ => false
  | .hdrRsvSrateIndex _ _ _ _ _ => false

end Sys2Proof
end

