-- ==== Sys2Proof/Decode.lean ====
section
/-!
DEFINITION. From bits to instructions, and back. The bitfield extractor (30 R82), the decoder of a
command word (30 R95, R96), the decoder of a header word into its table row (30 R87, R89), the byte
order of the buffer (20 R64), the register offsets (10 R20); then the encoder, written from the same
encodings, and the table's mask and match pairs.
-/

namespace Sys2Proof

/-! ### Byte order (20 R64) -/

/-- `Read32BE`'s assembly: the byte at the lower offset is the more significant (20 R64). -/
def be32 (b0 b1 b2 b3 : Byte) : Word := b0 ++ b1 ++ b2 ++ b3

/-- The four bytes of a word as the buffer holds them, lowest offset first (20 R64). -/
def beBytes (w : Word) : List Byte :=
  [w.extractLsb' 24 8, w.extractLsb' 16 8, w.extractLsb' 8 8, w.extractLsb' 0 8]

/-! ### The bitfield extractor (30 R82) -/

/-- The 13 raw fields of a header word (30 R80). -/
structure RawFields where
  sync : BitVec 11
  ver : BitVec 2
  lay : BitVec 2
  prot : BitVec 1
  bri : BitVec 4
  sri : BitVec 2
  pad : BitVec 1
  unused : BitVec 1
  mode : BitVec 2
  modex : BitVec 2
  copy : BitVec 1
  orig : BitVec 1
  emph : BitVec 2
deriving DecidableEq, Repr

/-- `Extract(W)` (30 R82), total on all words. -/
def extract (w : Word) : RawFields where
  sync := w.extractLsb' 21 11
  ver := w.extractLsb' 19 2
  lay := w.extractLsb' 17 2
  prot := w.extractLsb' 16 1
  bri := w.extractLsb' 12 4
  sri := w.extractLsb' 10 2
  pad := w.extractLsb' 9 1
  unused := w.extractLsb' 8 1
  mode := w.extractLsb' 6 2
  modex := w.extractLsb' 4 2
  copy := w.extractLsb' 3 1
  orig := w.extractLsb' 2 1
  emph := w.extractLsb' 0 2

/-- The fields below LAY, as a class row carries them. -/
def RawFields.below (r : RawFields) : HdrFields where
  prot := r.prot
  bri := r.bri
  sri := r.sri
  pad := r.pad
  unused := r.unused
  mode := r.mode
  modex := r.modex
  copy := r.copy
  orig := r.orig
  emph := r.emph

/-! ### Decoding -/

/-- Why bits are no instruction. -/
inductive Reject where
  /-- A command word with OP 0, 5, 6 or 7 (30 R96). -/
  | reservedOp (op : BitVec 3)
  /-- The bytes are not one 32-bit word: every word of the table has 4 bytes (30 R90). -/
  | notFourBytes
deriving DecidableEq, Repr

/-- The command decoder (30 R95): OP = bits 2:0, bits 31:3 ignored. Whether OP 4 exists is the
parameter ID3_UNIT, which the meaning of TAGSIZE looks at (30 R96). -/
def decodeCmd (w : Word) : Except Reject Instr :=
  let ign := w.extractLsb' 3 29
  let op := w.extractLsb' 0 3
  if op = 1#3 then .ok (.parse ign)
  else if op = 2#3 then .ok (.locate ign)
  else if op = 3#3 then .ok (.advance ign)
  else if op = 4#3 then .ok (.tagsize ign)
  else .error (.reservedOp op)

/-- Which class row of the table VER and LAY select (30 R84), for a VER other than '01' and a LAY
other than '00'. -/
def classOf (ver lay : BitVec 2) (f : HdrFields) : Instr :=
  if ver = 0b11#2 then
    if lay = 0b11#2 then .hdrV1L1 f else if lay = 0b10#2 then .hdrV1L2 f else .hdrV1L3 f
  else if ver = 0b10#2 then
    if lay = 0b11#2 then .hdrV2L1 f else if lay = 0b10#2 then .hdrV2L2 f else .hdrV2L3 f
  else
    if lay = 0b11#2 then .hdrV25L1 f else if lay = 0b10#2 then .hdrV25L2 f else .hdrV25L3 f

/-- The header decoder, total on all words: the row of the table that says what happens to the
candidate. The checks stand in the order of 40 R111; 30 R87 says that the order is not observable. -/
def decodeHdr (w : Word) : Instr :=
  let r := extract w
  if r.sync ≠ 0x7FF#11 then .hdrSyncRequired w
  else if r.ver = 0b01#2 then .hdrRsvVersion (w.extractLsb' 0 19)
  else if r.lay = 0b00#2 then .hdrRsvLayer r.ver (w.extractLsb' 0 17)
  else if r.bri = 0b1111#4 then .hdrBadBitrateIndex r.ver r.lay r.prot (w.extractLsb' 0 12)
  else if r.sri = 0b11#2 then .hdrRsvSrateIndex r.ver r.lay r.prot r.bri (w.extractLsb' 0 10)
  else classOf r.ver r.lay r.below

/-- The word a port presents, from its bytes. On the buffer port the bytes are big-endian (20 R64);
the CMD register has no byte order that software sees (20 R66), and its word is spelt the same way
here (log 4). -/
def wordOfBytes : List Byte → Option Word
  | [b0, b1, b2, b3] => some (be32 b0 b1 b2 b3)
  | _ => none

/-- Decoding is total on any bytes at either port, and rejects by name. -/
def decodeBytes (p : Port) (bs : List Byte) : Except Reject Instr :=
  match wordOfBytes bs with
  | none => .error .notFourBytes
  | some w =>
    match p with
    | .cmd => decodeCmd w
    | .buffer => .ok (decodeHdr w)

/-- The port a bare table word belongs to (log 4): the table gives words of both formats and no
port, so a word with the syncword is taken as a header word and any other as a command word. -/
def portOfTableWord (w : Word) : Port :=
  if w.extractLsb' 21 11 = 0x7FF#11 then .buffer else .cmd

/-- The word of a table row whose `nbits` bits are `w`, the bits above being 0. -/
def tableWord (nbits w : Nat) : Word := BitVec.ofNat 32 (w % 2 ^ nbits)

/-- The instruction the decoder reads from the instruction whose bits are `w`; no instruction of
MFHD is longer than 32 bits (30 R90, R95). -/
def decodeTableWord (nbits w : Nat) : Option Instr :=
  if nbits ≤ 32 then
    match decodeBytes (portOfTableWord (tableWord nbits w)) (beBytes (tableWord nbits w)) with
    | .ok i => some i
    | .error _ => none
  else none

/-! ### Encoding -/

/-- A header word from its 13 fields, SYNC at the top (30 R80). -/
def headerWord (r : RawFields) : Word :=
  r.sync ++ r.ver ++ r.lay ++ r.prot ++ r.bri ++ r.sri ++ r.pad ++ r.unused ++ r.mode ++ r.modex
    ++ r.copy ++ r.orig ++ r.emph

/-- The word of a class row: the sync, VER, LAY and the fields D to M of the row's encoding. -/
def classWord (ver lay : BitVec 2) (f : HdrFields) : Word :=
  headerWord
    { sync := 0x7FF#11, ver := ver, lay := lay, prot := f.prot, bri := f.bri, sri := f.sri,
      pad := f.pad, unused := f.unused, mode := f.mode, modex := f.modex, copy := f.copy,
      orig := f.orig, emph := f.emph }

/-- The word of an instruction, from the encodings of 30 R80, R89, R95 and the table. -/
def encode : Instr → Word
  | .parse ign => ign ++ 1#3
  | .locate ign => ign ++ 2#3
  | .advance ign => ign ++ 3#3
  | .tagsize ign => ign ++ 4#3
  | .hdrV1L1 f => classWord 0b11#2 0b11#2 f
  | .hdrV1L2 f => classWord 0b11#2 0b10#2 f
  | .hdrV1L3 f => classWord 0b11#2 0b01#2 f
  | .hdrV2L1 f => classWord 0b10#2 0b11#2 f
  | .hdrV2L2 f => classWord 0b10#2 0b10#2 f
  | .hdrV2L3 f => classWord 0b10#2 0b01#2 f
  | .hdrV25L1 f => classWord 0b00#2 0b11#2 f
  | .hdrV25L2 f => classWord 0b00#2 0b10#2 f
  | .hdrV25L3 f => classWord 0b00#2 0b01#2 f
  | .hdrSyncRequired w => w
  | .hdrRsvVersion rest => 0x7FF#11 ++ 0b01#2 ++ rest
  | .hdrRsvLayer ver rest => 0x7FF#11 ++ ver ++ 0b00#2 ++ rest
  | .hdrBadBitrateIndex ver lay prot rest => 0x7FF#11 ++ ver ++ lay ++ prot ++ 0b1111#4 ++ rest
  | .hdrRsvSrateIndex ver lay prot bri rest =>
    0x7FF#11 ++ ver ++ lay ++ prot ++ bri ++ 0b11#2 ++ rest

/-! ### The table's mask and match pairs -/

/-- The mask of an instruction's row in spec/opcode_table.json. -/
def rowMask : Instr → Word
  | .parse _ => 0x00000007#32
  | .locate _ => 0x00000007#32
  | .advance _ => 0x00000007#32
  | .tagsize _ => 0x00000007#32
  | .hdrV1L1 _ => 0xFFFE0000#32
  | .hdrV1L2 _ => 0xFFFE0000#32
  | .hdrV1L3 _ => 0xFFFE0000#32
  | .hdrV2L1 _ => 0xFFFE0000#32
  | .hdrV2L2 _ => 0xFFFE0000#32
  | .hdrV2L3 _ => 0xFFFE0000#32
  | .hdrV25L1 _ => 0xFFFE0000#32
  | .hdrV25L2 _ => 0xFFFE0000#32
  | .hdrV25L3 _ => 0xFFFE0000#32
  | .hdrSyncRequired _ => 0xFFE00000#32
  | .hdrRsvVersion _ => 0xFFF80000#32
  | .hdrRsvLayer _ _ => 0xFFE60000#32
  | .hdrBadBitrateIndex _ _ _ _ => 0xFFE0F000#32
  | .hdrRsvSrateIndex _ _ _ _ _ => 0xFFE00C00#32

/-- The match of an instruction's row in spec/opcode_table.json. -/
def rowMatch : Instr → Word
  | .parse _ => 0x00000001#32
  | .locate _ => 0x00000002#32
  | .advance _ => 0x00000003#32
  | .tagsize _ => 0x00000004#32
  | .hdrV1L1 _ => 0xFFFE0000#32
  | .hdrV1L2 _ => 0xFFFC0000#32
  | .hdrV1L3 _ => 0xFFFA0000#32
  | .hdrV2L1 _ => 0xFFF60000#32
  | .hdrV2L2 _ => 0xFFF40000#32
  | .hdrV2L3 _ => 0xFFF20000#32
  | .hdrV25L1 _ => 0xFFE60000#32
  | .hdrV25L2 _ => 0xFFE40000#32
  | .hdrV25L3 _ => 0xFFE20000#32
  | .hdrSyncRequired _ => 0xFFE00000#32
  | .hdrRsvVersion _ => 0xFFE80000#32
  | .hdrRsvLayer _ _ => 0xFFE00000#32
  | .hdrBadBitrateIndex _ _ _ _ => 0xFFE0F000#32
  | .hdrRsvSrateIndex _ _ _ _ _ => 0xFFE00C00#32

/-- A word against an instruction's row. The sync row is the one whose instruction is a word that
does NOT match (30 R89 "not 0xFFE00000"). -/
def rowHolds (i : Instr) (w : Word) : Bool :=
  match i with
  | .hdrSyncRequired _ => w &&& rowMask i != rowMatch i
  | .parse _ | .locate _ | .advance _ | .tagsize _ | .hdrV1L1 _ | .hdrV1L2 _ | .hdrV1L3 _
  | .hdrV2L1 _ | .hdrV2L2 _ | .hdrV2L3 _ | .hdrV25L1 _ | .hdrV25L2 _ | .hdrV25L3 _
  | .hdrRsvVersion _ | .hdrRsvLayer _ _ | .hdrBadBitrateIndex _ _ _ _
  | .hdrRsvSrateIndex _ _ _ _ _ => w &&& rowMask i == rowMatch i

/-! ### The register file's offsets (10 R20) -/

/-- The word offset of a register (10 R20). -/
def Reg.offset : Reg → Nat
  | .cmd => 0x00
  | .status => 0x04
  | .bufLen => 0x08
  | .argStart => 0x0C
  | .argEnd => 0x10
  | .hdrOffset => 0x14
  | .hdrWord => 0x18
  | .hdrFields => 0x1C
  | .hdrBitrate => 0x20
  | .hdrSrate => 0x24
  | .hdrFrameSize => 0x28
  | .tagSize => 0x2C
  | .reserved k => 0x30 + 4 * k.val

/-- All 16 registers, in the order of their offsets (10 R20). -/
def allRegs : List Reg :=
  [.cmd, .status, .bufLen, .argStart, .argEnd, .hdrOffset, .hdrWord, .hdrFields, .hdrBitrate,
   .hdrSrate, .hdrFrameSize, .tagSize, .reserved 0, .reserved 1, .reserved 2, .reserved 3]

/-- The register a host access of `width` bits at `offset` reaches: only 32-bit accesses at multiples
of 4 within 0x00 to 0x3C reach one (10 R21a, 20 R66). -/
def regAt (offset width : Nat) : Option Reg :=
  if width = 32 ∧ offset % 4 = 0 then allRegs[offset / 4]? else none

end Sys2Proof
end

