-- ==== Sys2Proof/Machine/Operands.lean ====
section
/-!
DEFINITION. The header decode datapath of 40_header_decode.md: the syncword matcher, the field
decoders, the two table indexers, the frame-size divider and the validator that composes them, in the
spec's order. Every function is pure; a decoder that may REJECT answers an Option.
-/

namespace Sys2Proof.Machine

/-- `SyncOK(W)`, the syncword matcher (40 R110). -/
def syncOK (w : Word) : Bool := w.extractLsb' 21 11 == 0x7FF#11

/-- `VerDec(v)`, the version decoder (40 R112). -/
def verDec (v : BitVec 2) : Option Version :=
  if v = 0b00#2 then some .v2_5 else if v = 0b01#2 then none
  else if v = 0b10#2 then some .v2 else some .v1

/-- `LayDec(l)`, the layer decoder (40 R113). -/
def layDec (l : BitVec 2) : Option Layer :=
  if l = 0b00#2 then none else if l = 0b01#2 then some .l3
  else if l = 0b10#2 then some .l2 else some .l1

/-- `ChMode(m)`, the channel-mode decoder (40 R121). -/
def chMode (m : BitVec 2) : ChannelMode :=
  if m = 0b00#2 then .stereo else if m = 0b01#2 then .jointStereo
  else if m = 0b10#2 then .dualChannel else .mono

/-- `ModeExt(lay, x)`, the mode-extension decoder (40 R122). The Layer 3 mapping is the source's, not
ISO's; the fields that do not apply to the layer are 0. -/
def modeExt (lay : Layer) (x : BitVec 2) : ModeExtension :=
  match lay with
  | .l3 =>
    { intensity := if x = 0b01#2 ∨ x = 0b10#2 then 1 else 0
      ms := if x = 0b10#2 ∨ x = 0b11#2 then 1 else 0
      lowerBand := 0
      upperBand := 0 }
  | .l1 | .l2 =>
    { intensity := 0, ms := 0, lowerBand := BitVec.ofNat 5 (4 * (x.toNat + 1)), upperBand := 31 }

/-- `Emph(e)`, the emphasis decoder (40 R123). '11' decodes to the distinct value `Reserved`. -/
def emph (e : BitVec 2) : Emphasis :=
  if e = 0b00#2 then .none else if e = 0b01#2 then .ms5015
  else if e = 0b10#2 then .ccittJ17 else .reserved

/-- `BitrateOf(ver, lay, i)`, the bitrate LUT indexer (40 R124), over the parameter BITRATE_LUT. -/
def bitrateOf (t : BitrateLut) (ver : Version) (lay : Layer) (i : BitVec 4) : Option (BitVec 9) :=
  if i = 0b0000#4 then some 0
  else if i = 0b1111#4 then none
  else (t[i.toNat]?).map (bitrateColumn ver lay)

/-- `SrateOf(ver, j)`, the sample-rate LUT indexer (40 R127). -/
def srateOf (ver : Version) (j : BitVec 2) : Option (BitVec 16) :=
  if j = 0b11#2 then none else srateLut ver j

/-- `FrameSize(br, sr, pad)`, the frame-size divider, on naturals (40 R130): floor division, then the
padding; 0 when a rate is 0. -/
def frameSize (br sr pad : Nat) : Nat :=
  if br = 0 ∨ sr = 0 then 0 else 144 * br * 1000 / sr + pad

/-- `Decode(W, o)`, the header validator and assembler (40 R141). The frame size is narrowed to the
16 bits of its field; 40 R131 bounds it by 9199, so nothing is lost. -/
def decodeHeader (t : BitrateLut) (w o : Word) : Header :=
  let f := extract w
  if syncOK w = false then .invalid
  else
    match verDec f.ver, layDec f.lay with
    | some ver, some lay =>
      match bitrateOf t ver lay f.bri, srateOf ver f.sri with
      | some br, some sr =>
        .valid
          { offset := o, word := w, version := ver, layer := lay, crc := f.prot, bitrate := br,
            srate := sr, padded := f.pad, chmode := chMode f.mode, modeExt := modeExt lay f.modex,
            copyright := f.copy, original := f.orig, emphasis := emph f.emph,
            frameSize := BitVec.ofNat 16 (frameSize br.toNat sr.toNat f.pad.toNat) }
      | _, _ => .invalid
    | _, _ => .invalid

/-- `WordOK(W)`: an acceptable header word (30 R87). -/
def wordOK (w : Word) : Bool :=
  w.extractLsb' 21 11 == 0x7FF#11 && w.extractLsb' 19 2 != 0b01#2 && w.extractLsb' 17 2 != 0b00#2
    && w.extractLsb' 12 4 != 0b1111#4 && w.extractLsb' 10 2 != 0b11#2

/-- `Synchsafe(b6, b7, b8, b9)`: base-128 digits, the most significant first, bit 7 of each byte
dropped (42 R193). -/
def synchsafe (b6 b7 b8 b9 : Byte) : Nat :=
  (b6 &&& 0x7F).toNat * 2 ^ 21 + (b7 &&& 0x7F).toNat * 2 ^ 14 + (b8 &&& 0x7F).toNat * 2 ^ 7
    + (b9 &&& 0x7F).toNat

/-- The tag size of a 10-byte prefix from the bytes the unit looks at (42 R190, R194, R195): the
magic, the footer flag (bit 4 of the flags byte) and the size. The byte values of "ID3" are from
general knowledge, as the spec says (log 16). -/
def tagSizeOfPrefix (b0 b1 b2 flags b6 b7 b8 b9 : Byte) : Word :=
  if b0 ≠ 0x49 ∨ b1 ≠ 0x44 ∨ b2 ≠ 0x33 then 0
  else if flags.getLsbD 4 then BitVec.ofNat 32 (synchsafe b6 b7 b8 b9 + 20)
  else BitVec.ofNat 32 (synchsafe b6 b7 b8 b9 + 10)

end Sys2Proof.Machine
end

