-- ==== Sys2Proof/Machine/Ops.lean ====
section
/-!
DEFINITION. The operations the meanings share: the buffer's bytes and how the block reads them
(20 R60 to R64), accepting and rejecting a command (41 R160, R161), completing one (41 R170), the scan
step for a candidate (41 R171), the tag step (42 R192), the register file (10 R20 to R36), reset
(70 R220). MFHD takes no exception and returns from none (60 R200, R207, R208), so no such operation
stands here; the conditions of 60 R200's table end as values in `reject`, `decodeHeader` and
`frameSize`.
-/

namespace Sys2Proof.Machine

/-! ### The buffer -/

/-- What an unlisted offset of the memory reads as: no byte (log 10). -/
def Memory.unlisted : Option Byte := none

/-- The byte listed at an offset. -/
def Memory.read : Memory → Nat → Option Byte
  | [], _ => Memory.unlisted
  | (k, b) :: m, a => if k = a then some b else Memory.read m a

/-- Storing one byte, in the place that keeps the offsets rising. -/
def Memory.write : Memory → Nat → Byte → Memory
  | [], a, b => [(a, b)]
  | (k, c) :: m, a, b =>
    if a < k then (a, b) :: (k, c) :: m
    else if a = k then (a, b) :: m
    else (k, c) :: Memory.write m a b

/-- The canonical form: offsets strictly rising. No entry can equal what an unlisted offset reads as,
since that is no byte. -/
def Memory.wf : Memory → Bool
  | [] => true
  | [_] => true
  | (k, _) :: (k', c') :: m => k < k' && Memory.wf ((k', c') :: m)

/-- `MemRead(o, 1)` (20 R61). A filled byte reads as filled; a byte the buffer holds that nobody
filled reads as a free value (60 R203, log 10); past the buffer's real end there is no byte, and the
spec gives the read no meaning (70 R230). -/
def memRead (s : State) (o : Nat) : Option Byte :=
  if o < s.bufSize.toNat then
    match Memory.read s.mem o with
    | some b => some b
    | none => some (Config.unfilledByte s.bufEpoch o)
  else none

/-- `Read32BE(o)` (20 R64). -/
def read32BE (s : State) (o : Nat) : Option Word :=
  match memRead s o, memRead s (o + 1), memRead s (o + 2), memRead s (o + 3) with
  | some b0, some b1, some b2, some b3 => some (be32 b0 b1 b2 b3)
  | _, _, _, _ => none

/-- Storing the bytes of a word in the buffer, lowest offset first. -/
def Memory.writeWord (m : Memory) (o : Nat) (w : Word) : Memory :=
  Memory.write
    (Memory.write
      (Memory.write (Memory.write m o (w.extractLsb' 24 8)) (o + 1) (w.extractLsb' 16 8)) (o + 2)
      (w.extractLsb' 8 8)) (o + 3) (w.extractLsb' 0 8)

/-! ### Candidates -/

/-- Whether fewer than 4 bytes are available at the offset (40 R150). -/
def tooShort (s : State) (o : Nat) : Bool := s.len.toNat < o + 4

/-- `HeaderAt(o)` once the word at `o` is known (40 R150). -/
def headerOfWord (s : State) (o : Nat) (w : Word) : Header :=
  if tooShort s o then .invalid else decodeHeader s.params.bitrateLut w (BitVec.ofNat 32 o)

/-- `HeaderAt(o)` (40 R150); none when it would read a byte the buffer does not hold. -/
def headerAt (s : State) (o : Nat) : Option Header :=
  if tooShort s o then some .invalid
  else
    match read32BE s o with
    | some w => some (headerOfWord s o w)
    | none => none

/-! ### Commands -/

/-- Acceptance of a PARSE, LOCATE or ADVANCE with its search origin and limit (41 R160). -/
def acceptScan (origin : Cursor) (limit : Word) (s : State) : State :=
  { s with len := s.bufLen, done := false, cur := origin, lim := limit, fsm := .scan }

/-- Acceptance of a TAGSIZE (41 R160). -/
def acceptTag (s : State) : State :=
  { s with len := s.bufLen, done := false, fsm := .tag }

/-- Acceptance latches BUF_LEN, which "must not exceed the number of bytes the buffer really holds": a
larger one "has no meaning" (70 R230) and the acceptance is refused (93 I-12, log 11). `t` is the state
that the acceptance gives. -/
def accept (t s : State) : Host.Outcome State Fault Refusal :=
  if s.bufSize.toNat < s.bufLen.toNat then .refused .bufLenAboveBuffer else .next t

/-- Rejection of a command request: exactly CMDERR <- 1 (41 R161, 60 R204). -/
def reject (s : State) : State := { s with cmdErr := true }

/-- `AdvanceOrigin()` (41 R164 to R166), in 33 bits, where no sum wraps (00 R8). -/
def advanceOrigin (s : State) : Cursor :=
  if s.hdrValid = false then s.argEnd.setWidth 33 + 1
  else if s.hdr.frameSize = 0 then s.hdr.offset.setWidth 33 + 1
  else s.hdr.offset.setWidth 33 + s.hdr.frameSize.setWidth 33

/-- `complete(h)` (41 R170). -/
def complete (h : Header) (s : State) : State :=
  { s with hdr := resultImage h, fsm := .idle, done := true }

/-- Whether the cursor has run past the limit (41 R171), compared as naturals. -/
def pastLimit (s : State) : Bool := s.lim.toNat < s.cur.toNat

/-- The scan step for the header value of the candidate at `S.cur` (41 R171). -/
def scanStep (h : Header) (s : State) : State :=
  if pastLimit s then complete .invalid s
  else
    match h with
    | .valid r => complete (.valid r) s
    | .invalid => { s with cur := s.cur + 1 }

/-- What the FSM does when the candidate at `S.cur` is the word `w`: the scan step with
`HeaderAt(S.cur)` decoded from `w`. Outside SCAN the FSM examines no candidate, and nothing changes
(log 7). -/
def examine (w : Word) (s : State) : State :=
  match s.fsm with
  | .scan => scanStep (headerOfWord s s.cur.toNat w) s
  | .idle => s
  | .tag => s

/-- `TagSize()` (42 R190, R191); none when it would read a byte the buffer does not hold. -/
def tagSizeOf (s : State) : Option Word :=
  if s.len.toNat < 10 then some 0
  else
    match memRead s 0, memRead s 1, memRead s 2, memRead s 5, memRead s 6, memRead s 7,
      memRead s 8, memRead s 9 with
    | some b0, some b1, some b2, some b5, some b6, some b7, some b8, some b9 =>
      some (tagSizeOfPrefix b0 b1 b2 b5 b6 b7 b8 b9)
    | _, _, _, _, _, _, _, _ => none

/-- The end of a TAGSIZE with its result (42 R192). The result header is not written. -/
def completeTag (v : Word) (s : State) : State :=
  { s with tagSize := v, fsm := .idle, done := true }

/-! ### The register file -/

/-- What a read of a register returns (10 R21 to R36). A read has no side effect (R21d). -/
def readReg (r : Reg) (s : State) : Word :=
  match r with
  | .cmd => 0
  | .status => s.statusWord
  | .bufLen => s.bufLen
  | .argStart => s.argStart
  | .argEnd => s.argEnd
  | .hdrOffset => s.hdr.offset
  | .hdrWord => s.hdr.word
  | .hdrFields => s.hdr.fields.setWidth 32
  | .hdrBitrate => s.hdr.bitrate.setWidth 32
  | .hdrSrate => s.hdr.srate.setWidth 32
  | .hdrFrameSize => s.hdr.frameSize.setWidth 32
  | .tagSize => if s.params.id3Unit = .absent then 0 else s.tagSize
  | .reserved _ => 0

/-- What a write to a register other than CMD does (10 R21b, R23 to R36): read-only registers and
reserved offsets ignore it. CMD holds no value (10 R22); a write to it is a command request, handled
by `hostWrite` in Agents.lean. -/
def writeReg (r : Reg) (v : Word) (s : State) : State :=
  match r with
  | .cmd => s
  | .status => { s with cmdErr := cmdErrAfterWrite v s.cmdErr }
  | .bufLen => { s with bufLen := v }
  | .argStart => { s with argStart := v }
  | .argEnd => { s with argEnd := v }
  | .hdrOffset => s
  | .hdrWord => s
  | .hdrFields => s
  | .hdrBitrate => s
  | .hdrSrate => s
  | .hdrFrameSize => s
  | .tagSize => s
  | .reserved _ => s

/-- The reset event (70 R220): every piece of MFHD's state to its value in 10 R50. The tables and
parameters are constants; the buffer and the agents' own data are not MFHD's state (log 12). -/
def applyReset (s : State) : State :=
  { s with
    bufLen := 0, argStart := 0, argEnd := 0, hdr := .zero, tagSize := 0, done := false,
    cmdErr := false, fsm := .idle, cur := 0, lim := 0, len := 0 }

end Sys2Proof.Machine
end

