-- ==== Sys2Proof/Machine/Commands.lean ====
section
/-!
DEFINITION. The meanings of the four command words (30 R95). A command word's effect is the write's:
acceptance when the FSM is idle (41 R160; refused where 70 R230 gives it no meaning), rejection
otherwise (41 R161). The FSM's steps follow in
`fsmStep` (Agents.lean).
-/

namespace Sys2Proof.Machine

/-- PARSE (41 R162): origin and limit are both ARG_START; ARG_END is not read. -/
def execParse (s : State) : Host.Outcome State Fault Refusal :=
  match s.fsm with
  | .idle => accept (acceptScan (s.argStart.setWidth 33) s.argStart s) s
  | .scan => .next (reject s)
  | .tag => .next (reject s)

/-- LOCATE (41 R163): from ARG_START to ARG_END, inclusive. -/
def execLocate (s : State) : Host.Outcome State Fault Refusal :=
  match s.fsm with
  | .idle => accept (acceptScan (s.argStart.setWidth 33) s.argEnd s) s
  | .scan => .next (reject s)
  | .tag => .next (reject s)

/-- ADVANCE (41 R164): from `AdvanceOrigin()` to ARG_END. -/
def execAdvance (s : State) : Host.Outcome State Fault Refusal :=
  match s.fsm with
  | .idle => accept (acceptScan (advanceOrigin s) s.argEnd s) s
  | .scan => .next (reject s)
  | .tag => .next (reject s)

/-- TAGSIZE (42 R190): accepted only when ID3_UNIT is present; otherwise OP 4 is reserved (30 R96). -/
def execTagsize (s : State) : Host.Outcome State Fault Refusal :=
  match s.fsm, s.params.id3Unit with
  | .idle, .present => accept (acceptTag s) s
  | .idle, .absent => .next (reject s)
  | .scan, _ => .next (reject s)
  | .tag, _ => .next (reject s)

end Sys2Proof.Machine
end

