-- ==== Sys2Proof/Machine/HeaderClasses.lean ====
section
/-!
DEFINITION. The meanings of the nine header-class rows: the FSM examines the candidate at `S.cur`
whose word is the row's (41 R171), decodes it (40 R141) and, where the word is acceptable, completes
the command with the header (41 R170).
-/

namespace Sys2Proof.Machine

/-- HDR.V1.L1. -/
def execHdrV1L1 (f : HdrFields) (s : State) : Host.Outcome State Fault Refusal :=
  .next (examine (encode (.hdrV1L1 f)) s)

/-- HDR.V1.L2. -/
def execHdrV1L2 (f : HdrFields) (s : State) : Host.Outcome State Fault Refusal :=
  .next (examine (encode (.hdrV1L2 f)) s)

/-- HDR.V1.L3. -/
def execHdrV1L3 (f : HdrFields) (s : State) : Host.Outcome State Fault Refusal :=
  .next (examine (encode (.hdrV1L3 f)) s)

/-- HDR.V2.L1. -/
def execHdrV2L1 (f : HdrFields) (s : State) : Host.Outcome State Fault Refusal :=
  .next (examine (encode (.hdrV2L1 f)) s)

/-- HDR.V2.L2. -/
def execHdrV2L2 (f : HdrFields) (s : State) : Host.Outcome State Fault Refusal :=
  .next (examine (encode (.hdrV2L2 f)) s)

/-- HDR.V2.L3. -/
def execHdrV2L3 (f : HdrFields) (s : State) : Host.Outcome State Fault Refusal :=
  .next (examine (encode (.hdrV2L3 f)) s)

/-- HDR.V2_5.L1. -/
def execHdrV25L1 (f : HdrFields) (s : State) : Host.Outcome State Fault Refusal :=
  .next (examine (encode (.hdrV25L1 f)) s)

/-- HDR.V2_5.L2. -/
def execHdrV25L2 (f : HdrFields) (s : State) : Host.Outcome State Fault Refusal :=
  .next (examine (encode (.hdrV25L2 f)) s)

/-- HDR.V2_5.L3. -/
def execHdrV25L3 (f : HdrFields) (s : State) : Host.Outcome State Fault Refusal :=
  .next (examine (encode (.hdrV25L3 f)) s)

end Sys2Proof.Machine
end

