-- ==== Sys2Proof/Machine/HeaderRejects.lean ====
section
/-!
DEFINITION. The meanings of the sync row and the four reject rows (30 R89): the candidate's word is
examined and found `INVALID`, which is "expected, non-fatal, drives the scan to try the next byte"
(60 R201).
-/

namespace Sys2Proof.Machine

/-- HDR.SYNC_REQUIRED: a word without the syncword (40 R110, log 5). -/
def execHdrSyncRequired (w : Word) (s : State) : Host.Outcome State Fault Refusal :=
  .next (examine (encode (.hdrSyncRequired w)) s)

/-- HDR.RSV_VERSION: VER '01' (40 R112). -/
def execHdrRsvVersion (rest : BitVec 19) (s : State) : Host.Outcome State Fault Refusal :=
  .next (examine (encode (.hdrRsvVersion rest)) s)

/-- HDR.RSV_LAYER: LAY '00' (40 R113). -/
def execHdrRsvLayer (ver : BitVec 2) (rest : BitVec 17) (s : State) :
    Host.Outcome State Fault Refusal :=
  .next (examine (encode (.hdrRsvLayer ver rest)) s)

/-- HDR.BAD_BITRATE_INDEX: BRI '1111' (40 R124). -/
def execHdrBadBitrateIndex (ver lay : BitVec 2) (prot : BitVec 1) (rest : BitVec 12) (s : State) :
    Host.Outcome State Fault Refusal :=
  .next (examine (encode (.hdrBadBitrateIndex ver lay prot rest)) s)

/-- HDR.RSV_SRATE_INDEX: SRI '11' (40 R127). -/
def execHdrRsvSrateIndex (ver lay : BitVec 2) (prot : BitVec 1) (bri : BitVec 4)
    (rest : BitVec 10) (s : State) : Host.Outcome State Fault Refusal :=
  .next (examine (encode (.hdrRsvSrateIndex ver lay prot bri rest)) s)

end Sys2Proof.Machine
end

