-- ==== Sys2Proof/Machine/Dispatch.lean ====
section
/-! DEFINITION. One arm per constructor of Instr, each one direct call of its meaning. -/

namespace Sys2Proof.Machine

def exec (i : Instr) (s : State) : Host.Outcome State Fault Refusal :=
  match i with
  | .parse _ => Sys2Proof.Machine.execParse s
  | .locate _ => Sys2Proof.Machine.execLocate s
  | .advance _ => Sys2Proof.Machine.execAdvance s
  | .tagsize _ => Sys2Proof.Machine.execTagsize s
  | .hdrV1L1 f => Sys2Proof.Machine.execHdrV1L1 f s
  | .hdrV1L2 f => Sys2Proof.Machine.execHdrV1L2 f s
  | .hdrV1L3 f => Sys2Proof.Machine.execHdrV1L3 f s
  | .hdrV2L1 f => Sys2Proof.Machine.execHdrV2L1 f s
  | .hdrV2L2 f => Sys2Proof.Machine.execHdrV2L2 f s
  | .hdrV2L3 f => Sys2Proof.Machine.execHdrV2L3 f s
  | .hdrV25L1 f => Sys2Proof.Machine.execHdrV25L1 f s
  | .hdrV25L2 f => Sys2Proof.Machine.execHdrV25L2 f s
  | .hdrV25L3 f => Sys2Proof.Machine.execHdrV25L3 f s
  | .hdrSyncRequired w => Sys2Proof.Machine.execHdrSyncRequired w s
  | .hdrRsvVersion rest => Sys2Proof.Machine.execHdrRsvVersion rest s
  | .hdrRsvLayer ver rest => Sys2Proof.Machine.execHdrRsvLayer ver rest s
  | .hdrBadBitrateIndex ver lay prot rest => Sys2Proof.Machine.execHdrBadBitrateIndex ver lay prot rest s
  | .hdrRsvSrateIndex ver lay prot bri rest => Sys2Proof.Machine.execHdrRsvSrateIndex ver lay prot bri rest s

end Sys2Proof.Machine
end

