-- ==== Sys2Proof/Machine/Agents.lean ====
section
/-!
DEFINITION. What each agent's move does (20 R73): a host register write or read, a poll, an FSM step,
reset, the loading collaborator's two moves. Each is one atomic event. `step` (Step.lean) only picks
the next one.
-/

namespace Sys2Proof.Machine

/-- A host register write (10 R21, 70 R233). A write to CMD is a command request (10 R22): its word is
decoded and executed, and a reserved OP is rejected (30 R96, 41 R161). -/
def hostWrite (offset width : Nat) (v : Word) (s : State) : Host.Outcome State Fault Refusal :=
  match regAt offset width with
  | none => .refused .badRegisterAccess
  | some .cmd =>
    match decodeCmd v with
    | .ok i => exec i s
    | .error _ => .next (reject s)
  | some r => .next (writeReg r v s)

/-- A host register read (10 R21d, 20 R73d): nothing changes but what the host got. -/
def hostRead (offset width : Nat) (s : State) : Host.Outcome State Fault Refusal :=
  match regAt offset width with
  | none => .refused .badRegisterAccess
  | some r => .next { s with rdata := readReg r s }

/-- One poll of `WAIT` (30 R98): a read of STATUS. While BUSY = 1 the host polls again, and the FSM
gets a turn in between, as fairness promises (70 R232, log 2). -/
def hostPoll (s : State) : Host.Outcome State Fault Refusal :=
  if s.busy then .next { s with rdata := s.statusWord, inputs := .fsm :: .wait :: s.inputs }
  else .next { s with rdata := s.statusWord }

/-- One FSM step. In IDLE there is none. In TAG it is the tag step (42 R192). In SCAN it is the scan
step (41 R171): past the limit, or with fewer than 4 bytes left (40 R150), nothing is read; otherwise
the candidate's word is read, decoded to its row and executed. -/
def fsmStep (s : State) : Host.Outcome State Fault Refusal :=
  match s.fsm with
  | .idle => .next s
  | .tag =>
    match tagSizeOf s with
    | some v => .next (completeTag v s)
    | none => .refused .outsideBuffer
  | .scan =>
    if pastLimit s || tooShort s s.cur.toNat then .next (scanStep .invalid s)
    else
      match read32BE s s.cur.toNat with
      | some w => exec (decodeHdr w) s
      | none => .refused .outsideBuffer

/-- The loading collaborator hands over a buffer of `size` bytes (70 R222). While a command runs, no
byte below `S.len` may change (20 R72). -/
def takeBuffer (size : Word) (s : State) : Host.Outcome State Fault Refusal :=
  if s.busy && s.len != 0 then .refused .bufferChangedWhileBusy
  else .next { s with mem := [], bufSize := size, bufEpoch := s.bufEpoch + 1 }

/-- The loading collaborator fills one byte (70 R222), under the same duty (20 R72). -/
def fillByte (offset : Word) (b : Byte) (s : State) : Host.Outcome State Fault Refusal :=
  if s.busy && offset.toNat < s.len.toNat then .refused .bufferChangedWhileBusy
  else if offset.toNat < s.bufSize.toNat then
    .next { s with mem := Memory.write s.mem offset.toNat b }
  else .refused .outsideBuffer

/-- One event at MFHD's boundary. -/
def handleInput (e : Input) (s : State) : Host.Outcome State Fault Refusal :=
  match e with
  | .write offset width v => hostWrite offset width v s
  | .read offset width => hostRead offset width s
  | .wait => hostPoll s
  | .fsm => fsmStep s
  | .reset => .next (applyReset s)
  | .newBuffer size => takeBuffer size s
  | .fill offset b => fillByte offset b s

/-- Preparing the FSM so that its very next step examines a candidate whose word is `w` (log 20): the
word's bytes at the cursor, inside the buffer, the latched length and the limit. -/
def placeCandidate (w : Word) (s : State) : State :=
  let o := if s.cur.toNat + 4 < 2 ^ 32 then s.cur.toNat else 0
  { s with
    fsm := .scan
    cur := BitVec.ofNat 33 o
    lim := if s.lim.toNat < o then BitVec.ofNat 32 o else s.lim
    len := if s.len.toNat < o + 4 then BitVec.ofNat 32 (o + 4) else s.len
    bufSize := if s.bufSize.toNat < o + 4 then BitVec.ofNat 32 (o + 4) else s.bufSize
    mem := Memory.writeWord s.mem o w
    inputs := .fsm :: s.inputs }

/-- Preparing the host so that its very next event writes the word `w` to CMD. -/
def placeCommand (w : Word) (s : State) : State :=
  { s with inputs := .write Reg.cmd.offset 32 w :: s.inputs }

end Sys2Proof.Machine
end

