-- ==== Sys2Proof/Machine/Step.lean ====
section
/-! DEFINITION. One step of the machine, and where it finds its next instruction. -/

namespace Sys2Proof.Machine

/-- One atomic event (20 R73): the next of `inputs`, or, when none is left, a turn of the FSM. -/
def step (s : State) : Host.Outcome State Fault Refusal :=
  match s.inputs with
  | [] => fsmStep s
  | e :: rest => handleInput e { s with inputs := rest }

/-- `s` with one table word placed where the very next step takes it (log 20): a header word at the
scan cursor in the buffer, a command word as the host's next write to CMD. -/
def State.withFetchWord (s : State) (nbits w : Nat) : State :=
  match portOfTableWord (tableWord nbits w) with
  | .buffer => placeCandidate (tableWord nbits w) s
  | .cmd => placeCommand (tableWord nbits w) s

end Sys2Proof.Machine
end

