-- ==== Sys2Proof/Machine/HostProgram.lean ====
section
/-!
DEFINITION. The host program syntax of 30_encoding.md: the operations WR, RD, WAIT and their bus
accesses (R98), the pseudo-instructions and their exact expansions (R99), and the platform addresses
over the OPEN parameters (20 R63, R70).
-/

namespace Sys2Proof.Machine

/-- One line of a host program (30 R98). -/
inductive HostOp where
  | wr (r : Reg) (v : Word)
  | rd (r : Reg)
  | wait
deriving DecidableEq, Repr

/-- A pseudo-instruction (30 R99). -/
inductive Pseudo where
  | setbuf (len : Word)
  | parse (o : Word)
  | locate (s e : Word)
  | advance (e : Word)
  | tagsize
  | clrerr
deriving DecidableEq, Repr

/-- The exact expansions of 30 R99. -/
def expandPseudo : Pseudo → List HostOp
  | .setbuf len => [.wr .bufLen len]
  | .parse o => [.wr .argStart o, .wr .cmd 1, .wait]
  | .locate s e => [.wr .argStart s, .wr .argEnd e, .wr .cmd 2, .wait]
  | .advance e => [.wr .argEnd e, .wr .cmd 3, .wait]
  | .tagsize => [.wr .cmd 4, .wait]
  | .clrerr => [.wr .status 0x8]

/-- The event a host operation is at MFHD's boundary (30 R98): a 32-bit access at the register's
offset, or polling. -/
def inputOfOp : HostOp → Input
  | .wr r v => .write r.offset 32 v
  | .rd r => .read r.offset 32
  | .wait => .wait

/-- A host program as a list of events (30 R98). -/
def inputsOfProgram (p : List HostOp) : List Input := p.map inputOfOp

/-- The platform address of a register (20 R70): its offset from MFHD_BASE. -/
def registerAddress (r : Reg) : Nat := Config.mfhdBase + r.offset

/-- The platform address of a buffer byte (20 R70): its offset from BUF_BASE. -/
def bufferAddress (o : Word) : Nat := Config.bufBase + o.toNat

end Sys2Proof.Machine
end

