-- ==== Sys2Proof/Safety.lean ====
section
/-!
DEFINITION. What claims about runs are stated with: the invariant of MFHD's state, the host's duties
(70 R222, R225, R230), and the result a scan must have (41 R173).
-/

namespace Sys2Proof.Machine

/-- The result header registers hold one header value that some completed command, or reset,
produced, never a partial one (10 R37): the image of `INVALID`, or of the decoding of some word at
some offset of a buffer of at most 2^32 - 1 bytes. -/
def HoldsHeader (t : BitrateLut) (r : ResultRegs) : Prop :=
  r = resultImage .invalid ∨
    ∃ (w o : Word) (h : HeaderRecord),
      decodeHeader t w o = .valid h ∧ o.toNat + 4 < 2 ^ 32 ∧ r = resultImage (.valid h)

/-- What holds of MFHD's state at reset and after every step. -/
structure State.Inv (s : State) : Prop where
  /-- The memory keeps its canonical form. -/
  memWf : Memory.wf s.mem = true
  /-- Only bytes the buffer holds are listed (70 R230). -/
  memInside : ∀ c ∈ s.mem, c.1 < s.bufSize.toNat
  /-- The bitrate table is a legal one (40 R126, R129). -/
  lutLegal : legalBitrateLut s.params.bitrateLut = true
  /-- The result header is one header value (10 R37). -/
  header : HoldsHeader s.params.bitrateLut s.hdr
  /-- "BUSY and DONE are never 1 together" (10 R23). -/
  busyNotDone : s.busy = true → s.done = false
  /-- Without the ID3v2 unit no tag step is pending and TAG_SIZE holds 0 (10 R35, 30 R96). -/
  noTagWithoutUnit : s.params.id3Unit = .absent → s.fsm ≠ .tag ∧ s.tagSize = 0
  /-- The largest tag size (42 R190). -/
  tagBound : s.tagSize.toNat ≤ 268435475
  /-- While a command runs its latched length is not above the buffer's size (70 R230). -/
  covered : s.busy = true → s.len.toNat ≤ s.bufSize.toNat
  /-- The largest value the cursor can take (00 R6), well inside 33 bits. -/
  cursorBound : s.cur.toNat ≤ 2 ^ 32 + 9194

/-- A host write of `v` to CMD is accepted (41 R160). -/
def acceptsWrite (v : Word) (s : State) : Bool :=
  s.fsm == .idle &&
    (v.extractLsb' 0 3 == 1#3 || v.extractLsb' 0 3 == 2#3 || v.extractLsb' 0 3 == 3#3 ||
      (v.extractLsb' 0 3 == 4#3 && s.params.id3Unit == .present))

/-- It is the FSM's turn: the next event is its own, or no event is left (log 1). -/
def State.fsmTurn (s : State) : Prop := s.inputs = [] ∨ ∃ rest, s.inputs = .fsm :: rest

/-- The event breaks none of the interface's rules and the host's duties in this state (10 R21,
20 R72, 70 R230). -/
def keepsDuties (e : Input) (s : State) : Bool :=
  match e with
  | .write offset width v =>
    match regAt offset width with
    | none => false
    | some .cmd => !acceptsWrite v s || s.bufLen.toNat ≤ s.bufSize.toNat
    | some _ => true
  | .read offset width => (regAt offset width).isSome
  | .wait => true
  | .fsm => true
  | .reset => true
  | .newBuffer _ => !(s.busy && s.len != 0)
  | .fill offset _ => !(s.busy && offset.toNat < s.len.toNat) && offset.toNat < s.bufSize.toNat

/-- The latched length is not above the buffer's real size (70 R230). -/
def bufferCovers (s : State) : Bool := s.len.toNat ≤ s.bufSize.toNat

/-- `h` is `ScanResult(c0, lim)` of 41 R173 in the state `s`: the header at the least offset from `c0`
to `lim` that has a valid one, or `INVALID` if none has. -/
def IsScanResult (s : State) (c0 lim : Nat) (h : Header) : Prop :=
  (∃ o r, c0 ≤ o ∧ o ≤ lim ∧ headerAt s o = some (.valid r) ∧ h = .valid r ∧
      ∀ o', c0 ≤ o' → o' < o → headerAt s o' = some .invalid) ∨
    (h = .invalid ∧ ∀ o', c0 ≤ o' → o' ≤ lim → headerAt s o' = some .invalid)

/-- The frames `fs`, back to back from offset `o` to the end of the latched length (41 R176): each has a
valid header of non-zero frame size, and the next stands right behind it. -/
def FramesFrom (s : State) : Nat → List HeaderRecord → Prop
  | o, [] => o = s.len.toNat
  | o, r :: rs =>
    headerAt s o = some (.valid r) ∧ r.frameSize ≠ 0 ∧ FramesFrom s (o + r.frameSize.toNat) rs

/-- The host program of 41 R176: `LOCATE 0, e`, then `k` times `ADVANCE e`. -/
def framesProgram (e : Word) (k : Nat) : List Input :=
  inputsOfProgram
    (expandPseudo (.locate 0 e) ++ (List.replicate k (expandPseudo (.advance e))).flatten)

/-- A safe run of `k` steps: it never meets a refusal. -/
def SafeRun (k : Nat) (s : State) : Prop := ∃ t, Host.Core.run Sys2Proof.core k s = .next t

end Sys2Proof.Machine
end

