-- ==== Sys2Proof/Certificates/Slice0/Obligations.lean ====
section
/-!
DEFINITION. The statements for the provers, each a proposition about the model, with the rule of spec/
it follows. Nothing is proved here.
-/

open Sys2Proof Sys2Proof.Machine

/-! ### Encoding -/

/-- Words written out bit by bit from the encodings of 30 R80, R89 and R95 decode to the rows they
stand for: one of each command, one class word, one word of each reject row and one without the sync. -/
def Obligations.SpecWordsDecodeToTheirRows : Prop :=
  decodeCmd 0b00000000000000000000000000000001#32 = .ok (.parse 0) ∧
  decodeCmd 0b11111111111111111111111111111010#32 = .ok (.locate 0x1FFFFFFF) ∧
  decodeCmd 0b00000000000000000000000000001011#32 = .ok (.advance 1) ∧
  decodeCmd 0b10000000000000000000000000000100#32 = .ok (.tagsize 0x10000000) ∧
  decodeHdr 0b11111111111110111001000001100000#32 =
    .hdrV1L3 ⟨1, 9, 0, 0, 0, 1, 2, 0, 0, 0⟩ ∧
  decodeHdr 0b11111111111010111001000000000000#32 = .hdrRsvVersion 0x39000 ∧
  decodeHdr 0b11111111111110011001000000000000#32 = .hdrRsvLayer 3 0x19000 ∧
  decodeHdr 0b11111111111110111111000000000000#32 = .hdrBadBitrateIndex 3 1 1 0 ∧
  decodeHdr 0b11111111111110111001110000000000#32 = .hdrRsvSrateIndex 3 1 1 9 0 ∧
  decodeHdr 0b01111111111100000000000000000000#32 = .hdrSyncRequired 0x7FF00000

/-- Command words: decoding the encoding of a command gives it back, and a word that decodes to a
command is that command's encoding, its ignored bits included (30 R95). -/
def Obligations.CommandWordsRoundTrip : Prop :=
  (∀ i : Instr, i.isCommand = true → decodeCmd (encode i) = .ok i) ∧
  (∀ (w : Word) (i : Instr), decodeCmd w = .ok i → i.isCommand = true ∧ encode i = w)

/-- Exactly the OP values 0, 5, 6 and 7 are refused by the command decoder, and bits 31:3 play no part
in it (30 R95, R96; OP 4 without the ID3v2 unit is rejected by TAGSIZE's meaning). -/
def Obligations.OnlyReservedOpsAreNoCommand : Prop :=
  ∀ w : Word,
    (∃ e, decodeCmd w = .error e) ↔ (w.toNat % 8 = 0 ∨ w.toNat % 8 = 5 ∨ w.toNat % 8 = 6 ∨
      w.toNat % 8 = 7)

/-- Every well-formed header instruction survives encoding and decoding, with every operand at every
value its row admits. -/
def Obligations.HeaderInstructionsRoundTrip : Prop :=
  ∀ i : Instr, i.isCommand = false → i.wf = true → decodeHdr (encode i) = i

/-- Every 32-bit word decodes to a well-formed header instruction whose encoding is the word: no bit
is dropped and no word has two readings. -/
def Obligations.HeaderWordsRoundTrip : Prop :=
  ∀ w : Word,
    encode (decodeHdr w) = w ∧ (decodeHdr w).wf = true ∧ (decodeHdr w).isCommand = false

/-- The row a header word decodes to holds of the word, by the table's mask and match (30 R89, R90),
and a word that matches one of the four reject rows never decodes to one of the nine class rows, nor to
a `VALID` header. -/
def Obligations.DecodedRowHoldsAndRejectRowsWin : Prop :=
  ∀ w : Word,
    rowHolds (decodeHdr w) w = true ∧
    ((w &&& 0xFFF80000#32 = 0xFFE80000#32 ∨ w &&& 0xFFE60000#32 = 0xFFE00000#32 ∨
        w &&& 0xFFE0F000#32 = 0xFFE0F000#32 ∨ w &&& 0xFFE00C00#32 = 0xFFE00C00#32) →
      (decodeHdr w).isClass = false ∧ ∀ t o, decodeHeader t w o = .invalid)

/-! ### The header decode datapath -/

/-- `WordOK` (30 R87) is the rule's five conditions, and a word decodes to a `VALID` header exactly when
they hold, whatever the bitrate table and the offset: no other bit and no order of tests matters. -/
def Obligations.ValidExactlyWhenTheFiveConditionsHold : Prop :=
  ∀ (t : BitrateLut) (w o : Word),
    (wordOK w = true ↔
      (w.extractLsb' 21 11 = 0x7FF#11 ∧ w.extractLsb' 19 2 ≠ 0b01#2 ∧
        w.extractLsb' 17 2 ≠ 0b00#2 ∧ w.extractLsb' 12 4 ≠ 0b1111#4 ∧
        w.extractLsb' 10 2 ≠ 0b11#2)) ∧
    ((∃ h, decodeHeader t w o = .valid h) ↔ wordOK w = true) ∧
    (wordOK w = false → decodeHeader t w o = .invalid)

/-- The fields of a `VALID` header are the word's, by the tables of 40 R112 to R123: each code of
VER, LAY, MODE, EMPH and, by layer, MODEX gives the value the rule names; the flags are the raw bits. -/
def Obligations.ValidHeaderFieldsFollowTheWord : Prop :=
  ∀ (t : BitrateLut) (w o : Word) (h : HeaderRecord), decodeHeader t w o = .valid h →
    h.offset = o ∧ h.word = w ∧
    (h.version = .v1 ↔ w.extractLsb' 19 2 = 0b11#2) ∧
    (h.version = .v2 ↔ w.extractLsb' 19 2 = 0b10#2) ∧
    (h.version = .v2_5 ↔ w.extractLsb' 19 2 = 0b00#2) ∧
    (h.layer = .l1 ↔ w.extractLsb' 17 2 = 0b11#2) ∧
    (h.layer = .l2 ↔ w.extractLsb' 17 2 = 0b10#2) ∧
    (h.layer = .l3 ↔ w.extractLsb' 17 2 = 0b01#2) ∧
    h.crc = w.extractLsb' 16 1 ∧ h.padded = w.extractLsb' 9 1 ∧
    h.copyright = w.extractLsb' 3 1 ∧ h.original = w.extractLsb' 2 1 ∧
    chmodeCode h.chmode = (w.extractLsb' 6 2).setWidth 25 ∧
    emphasisCode h.emphasis = (w.extractLsb' 0 2).setWidth 25 ∧
    (h.layer = .l3 →
      h.modeExt.lowerBand = 0 ∧ h.modeExt.upperBand = 0 ∧
      (h.modeExt.intensity = 1 ↔ w.extractLsb' 4 2 = 0b01#2 ∨ w.extractLsb' 4 2 = 0b10#2) ∧
      (h.modeExt.ms = 1 ↔ w.extractLsb' 4 2 = 0b10#2 ∨ w.extractLsb' 4 2 = 0b11#2)) ∧
    (h.layer ≠ .l3 →
      h.modeExt.intensity = 0 ∧ h.modeExt.ms = 0 ∧ h.modeExt.upperBand = 31 ∧
      h.modeExt.lowerBand.toNat = 4 * ((w.extractLsb' 4 2).toNat + 1))

/-- The bitrate of a `VALID` header (40 R124): 0 for index 0, else the entry of BITRATE_LUT in the row
of the index and the column of version and layer, MPEG 2.5 sharing the MPEG 2 columns. -/
def Obligations.BitrateComesFromTheSelectedColumn : Prop :=
  ∀ (t : BitrateLut) (w o : Word) (h : HeaderRecord), decodeHeader t w o = .valid h →
    (w.extractLsb' 12 4 = 0#4 → h.bitrate = 0) ∧
    (∀ k : Fin 15, (w.extractLsb' 12 4).toNat = k.val → k.val ≠ 0 →
      (h.version = .v1 → h.layer = .l1 → h.bitrate = t[k].v1l1) ∧
      (h.version = .v1 → h.layer = .l2 → h.bitrate = t[k].v1l2) ∧
      (h.version = .v1 → h.layer = .l3 → h.bitrate = t[k].v1l3) ∧
      (h.version ≠ .v1 → h.layer = .l1 → h.bitrate = t[k].v2l1) ∧
      (h.version ≠ .v1 → h.layer ≠ .l1 → h.bitrate = t[k].v2l23))

/-- The sample rate of a `VALID` header is the entry of 40 R128 for its index and version, so it is
never 0 and the divider's zero guard never fires for it through the rate (R132). -/
def Obligations.SampleRateIsTheTableEntryAndNotZero : Prop :=
  ∀ (t : BitrateLut) (w o : Word) (h : HeaderRecord), decodeHeader t w o = .valid h →
    h.srate ≠ 0 ∧
    (h.version = .v1 → h.srate = if w.extractLsb' 10 2 = 0#2 then 44100
      else if w.extractLsb' 10 2 = 1#2 then 48000 else 32000) ∧
    (h.version = .v2 → h.srate = if w.extractLsb' 10 2 = 0#2 then 22050
      else if w.extractLsb' 10 2 = 1#2 then 24000 else 16000) ∧
    (h.version = .v2_5 → h.srate = if w.extractLsb' 10 2 = 0#2 then 11025
      else if w.extractLsb' 10 2 = 1#2 then 12000 else 8000)

/-- The frame size a `VALID` header holds is the exact value of the divider of 40 R130, with nothing
lost in its 16 bits, and it is at most 9199, whatever the bitrate table (R131). -/
def Obligations.FrameSizeIsExactAndBounded : Prop :=
  ∀ (t : BitrateLut) (w o : Word) (h : HeaderRecord), decodeHeader t w o = .valid h →
    h.frameSize.toNat =
      (if h.bitrate = 0 then 0
       else 144 * h.bitrate.toNat * 1000 / h.srate.toNat + h.padded.toNat) ∧
    h.frameSize.toNat ≤ 9199

/-- "`frameSize >= 4` when `bitrate != 0`, and `frameSize = 0` when `bitrate = 0`" (40 R142), under a
legal BITRATE_LUT. -/
def Obligations.FrameSizeAtLeastFourUnlessFreeFormat : Prop :=
  ∀ (t : BitrateLut) (w o : Word) (h : HeaderRecord), legalBitrateLut t = true →
    decodeHeader t w o = .valid h →
    (h.bitrate ≠ 0 → 4 ≤ h.frameSize.toNat) ∧ (h.bitrate = 0 → h.frameSize = 0)

/-- A `VALID` header has bitrate 0 exactly for a free-format word, under a legal BITRATE_LUT: no
legal table entry of rows 1 to 14 is 0 (40 R124, R129). -/
def Obligations.BitrateZeroExactlyForFreeFormat : Prop :=
  ∀ (t : BitrateLut) (w o : Word) (h : HeaderRecord), legalBitrateLut t = true →
    decodeHeader t w o = .valid h → (h.bitrate = 0 ↔ w.extractLsb' 12 4 = 0#4)

/-- HDR_FIELDS of a header unpacks to the header's fields at the bit positions of 10 R29 and with the
codes of R31: no two fields overlap. -/
def Obligations.HdrFieldsUnpackToTheHeader : Prop :=
  ∀ h : HeaderRecord,
    let v := (resultImage (.valid h)).fields.setWidth 32
    v.extractLsb' 0 1 = 1#1 ∧
    v.extractLsb' 1 2 = (match h.version with | .v1 => 0#2 | .v2 => 1#2 | .v2_5 => 2#2) ∧
    v.extractLsb' 3 2 = (match h.layer with | .l1 => 1#2 | .l2 => 2#2 | .l3 => 3#2) ∧
    v.extractLsb' 5 1 = h.crc ∧ v.extractLsb' 6 1 = h.padded ∧
    v.extractLsb' 7 2 = (match h.chmode with
      | .stereo => 0#2 | .jointStereo => 1#2 | .dualChannel => 2#2 | .mono => 3#2) ∧
    v.extractLsb' 9 1 = h.copyright ∧ v.extractLsb' 10 1 = h.original ∧
    v.extractLsb' 11 2 = (match h.emphasis with
      | .none => 0#2 | .ms5015 => 1#2 | .ccittJ17 => 2#2 | .reserved => 3#2) ∧
    v.extractLsb' 13 1 = h.modeExt.intensity ∧ v.extractLsb' 14 1 = h.modeExt.ms ∧
    v.extractLsb' 15 5 = h.modeExt.lowerBand ∧ v.extractLsb' 20 5 = h.modeExt.upperBand ∧
    v.extractLsb' 25 7 = 0#7

/-- Synchsafe decoding (42 R193): base-128 digits of the low 7 bits, the most significant first; the
result is below 2^28 and bit 7 of no byte matters. -/
def Obligations.SynchsafeIsBase128OfTheLowSevenBits : Prop :=
  ∀ b6 b7 b8 b9 : Byte,
    synchsafe b6 b7 b8 b9 =
      b6.toNat % 128 * 2097152 + b7.toNat % 128 * 16384 + b8.toNat % 128 * 128 + b9.toNat % 128 ∧
    synchsafe b6 b7 b8 b9 ≤ 268435455

/-- The tag size of a 10-byte prefix (42 R190): 0 unless it begins 0x49 0x44 0x33, else the synchsafe
size plus 20 with the footer flag (mask 0x10) and plus 10 without; at most 268435475. -/
def Obligations.TagSizeOfAPrefixIsSizePlusHeaders : Prop :=
  ∀ b0 b1 b2 flags b6 b7 b8 b9 : Byte,
    (tagSizeOfPrefix b0 b1 b2 flags b6 b7 b8 b9).toNat =
      (if b0 = 0x49 ∧ b1 = 0x44 ∧ b2 = 0x33 then
        synchsafe b6 b7 b8 b9 + (if flags &&& 0x10 = 0x10 then 20 else 10)
       else 0) ∧
    (tagSizeOfPrefix b0 b1 b2 flags b6 b7 b8 b9).toNat ≤ 268435475

/-! ### Commands -/

/-- Acceptance (41 R160), for the four commands as instructions: with the FSM idle, BUF_LEN not above
the buffer's size (70 R230) and, for TAGSIZE, the ID3v2 unit present, each answers a next state in which
BUF_LEN is latched, DONE is 0, the cursor and the limit come from the arguments and the FSM is busy, and
everything else is as before. -/
def Obligations.IdleCommandsAreAccepted : Prop :=
  ∀ (s : State) (g : BitVec 29), s.fsm = .idle → s.bufLen.toNat ≤ s.bufSize.toNat →
    exec (.parse g) s = .next { s with
      len := s.bufLen, done := false, cur := s.argStart.setWidth 33, lim := s.argStart,
      fsm := .scan } ∧
    exec (.locate g) s = .next { s with
      len := s.bufLen, done := false, cur := s.argStart.setWidth 33, lim := s.argEnd,
      fsm := .scan } ∧
    exec (.advance g) s = .next { s with
      len := s.bufLen, done := false, cur := advanceOrigin s, lim := s.argEnd, fsm := .scan } ∧
    (s.params.id3Unit = .present →
      exec (.tagsize g) s = .next { s with len := s.bufLen, done := false, fsm := .tag })

/-- A host write of `v` to CMD is accepted as 41 R160 says: with the FSM idle and OP 1, 2, 3, or 4
with the unit present, atomically, the registers the rule names and nothing else; BUSY becomes 1. Where
BUF_LEN exceeds the buffer's size the acceptance has no meaning (70 R230) and is the subject of
OnlyIllegalAccessesAreRefused. -/
def Obligations.CmdWriteWhileIdleIsAccepted : Prop :=
  ∀ (s : State) (v : Word) (rest : List Input), s.fsm = .idle →
    s.bufLen.toNat ≤ s.bufSize.toNat → s.inputs = .write 0x00 32 v :: rest →
    (v.extractLsb' 0 3 = 1#3 → ∃ t, step s = .next t ∧ t.busy = true ∧ t = { s with
      inputs := rest, len := s.bufLen, done := false, cur := s.argStart.setWidth 33,
      lim := s.argStart, fsm := .scan }) ∧
    (v.extractLsb' 0 3 = 2#3 → ∃ t, step s = .next t ∧ t.busy = true ∧ t = { s with
      inputs := rest, len := s.bufLen, done := false, cur := s.argStart.setWidth 33,
      lim := s.argEnd, fsm := .scan }) ∧
    (v.extractLsb' 0 3 = 3#3 → ∃ t, step s = .next t ∧ t.busy = true ∧ t = { s with
      inputs := rest, len := s.bufLen, done := false, cur := advanceOrigin s, lim := s.argEnd,
      fsm := .scan }) ∧
    (v.extractLsb' 0 3 = 4#3 → s.params.id3Unit = .present →
      ∃ t, step s = .next t ∧ t.busy = true ∧ t = { s with
        inputs := rest, len := s.bufLen, done := false, fsm := .tag })

/-- Rejection (41 R161): a write to CMD while the FSM is busy, or with a reserved OP, or with OP 4 and
no ID3v2 unit, does exactly CMDERR <- 1. -/
def Obligations.RejectedCmdWriteOnlySetsCmdErr : Prop :=
  ∀ (s : State) (v : Word) (rest : List Input),
    s.inputs = .write 0x00 32 v :: rest →
    (s.fsm ≠ .idle ∨ v.toNat % 8 = 0 ∨ v.toNat % 8 = 5 ∨ v.toNat % 8 = 6 ∨ v.toNat % 8 = 7 ∨
      (v.toNat % 8 = 4 ∧ s.params.id3Unit = .absent)) →
    step s = .next { s with inputs := rest, cmdErr := true }

/-- The origin of an ADVANCE, as a natural number that never wraps (41 R164 to R166): ARG_END + 1
without a valid result header, HDR_OFFSET + 1 after a free-format one, else HDR_OFFSET plus the frame
size. -/
def Obligations.AdvanceOriginNeverWraps : Prop :=
  ∀ s : State,
    (s.hdr.fields.getLsbD 0 = false → (advanceOrigin s).toNat = s.argEnd.toNat + 1) ∧
    (s.hdr.fields.getLsbD 0 = true → s.hdr.frameSize = 0 →
      (advanceOrigin s).toNat = s.hdr.offset.toNat + 1) ∧
    (s.hdr.fields.getLsbD 0 = true → s.hdr.frameSize ≠ 0 →
      (advanceOrigin s).toNat = s.hdr.offset.toNat + s.hdr.frameSize.toNat)

/-! ### Header words -/

/-- The nine class rows: a well-formed class word at the cursor, inside limit and length, completes the
command (41 R171, R170) with the header whose version and layer are the row's and whose other fields
are the word's, in one step, and changes nothing else. -/
def Obligations.ClassWordsCompleteWithTheirHeader : Prop :=
  ∀ (c : HdrFields → Instr) (ver : Version) (lay : Layer),
    (c, ver, lay) ∈
      [(Instr.hdrV1L1, Version.v1, Layer.l1), (Instr.hdrV1L2, .v1, .l2), (Instr.hdrV1L3, .v1, .l3),
       (Instr.hdrV2L1, .v2, .l1), (Instr.hdrV2L2, .v2, .l2), (Instr.hdrV2L3, .v2, .l3),
       (Instr.hdrV25L1, .v2_5, .l1), (Instr.hdrV25L2, .v2_5, .l2),
       (Instr.hdrV25L3, .v2_5, .l3)] →
    ∀ (f : HdrFields) (s : State), f.wf = true → s.fsm = .scan →
      s.cur.toNat ≤ s.lim.toNat → s.cur.toNat + 4 ≤ s.len.toNat →
      ∃ br sr, bitrateOf s.params.bitrateLut ver lay f.bri = some br ∧
        srateLut ver f.sri = some sr ∧
        exec (c f) s = .next { s with
          fsm := .idle, done := true,
          hdr := resultImage (.valid
            { offset := s.cur.setWidth 32, word := encode (c f), version := ver, layer := lay,
              crc := f.prot, bitrate := br, srate := sr, padded := f.pad, chmode := chMode f.mode,
              modeExt := modeExt lay f.modex, copyright := f.copy, original := f.orig,
              emphasis := emph f.emph,
              frameSize := BitVec.ofNat 16 (frameSize br.toNat sr.toNat f.pad.toNat) }) }

/-- The sync row and the four reject rows: such a word at a cursor inside the limit is no header, and
the scan moves to the next byte offset (41 R171, 60 R201) with nothing else changed. -/
def Obligations.RejectedWordsMoveTheCursorByOne : Prop :=
  ∀ s : State, s.fsm = .scan → s.cur.toNat ≤ s.lim.toNat →
    (∀ w : Word, w.extractLsb' 21 11 ≠ 0x7FF#11 →
      exec (.hdrSyncRequired w) s = .next { s with cur := s.cur + 1 }) ∧
    (∀ rest, exec (.hdrRsvVersion rest) s = .next { s with cur := s.cur + 1 }) ∧
    (∀ ver rest, exec (.hdrRsvLayer ver rest) s = .next { s with cur := s.cur + 1 }) ∧
    (∀ ver lay prot rest,
      exec (.hdrBadBitrateIndex ver lay prot rest) s = .next { s with cur := s.cur + 1 }) ∧
    (∀ ver lay prot bri rest,
      exec (.hdrRsvSrateIndex ver lay prot bri rest) s = .next { s with cur := s.cur + 1 })

/-- Every header word, of any row: past the limit the command completes with `INVALID` (41 R171);
inside it but with fewer than 4 bytes left the candidate is `INVALID` and the cursor moves on
(40 R150); outside SCAN nothing changes (the model's choice, log 7). -/
def Obligations.HeaderWordsOutsideTheRange : Prop :=
  ∀ (i : Instr) (s : State), i.isCommand = false →
    (s.fsm = .scan → s.lim.toNat < s.cur.toNat →
      exec i s = .next { s with
        hdr := ⟨0, 0, 0, 0, 0, 0⟩, fsm := .idle, done := true }) ∧
    (s.fsm = .scan → s.cur.toNat ≤ s.lim.toNat → s.len.toNat < s.cur.toNat + 4 →
      exec i s = .next { s with cur := s.cur + 1 }) ∧
    (s.fsm ≠ .scan → exec i s = .next s)

/-! ### All instructions -/

/-- No instruction stops (60 R200: every condition ends as a value), but for a command that would be
accepted while BUF_LEN exceeds the buffer's size, which has no meaning (70 R230) and is refused there
(log 11): every one of the 18 answers a next state in every other state. For a header word executed
outside SCAN that next state is the model's choice (log 7). -/
def Obligations.InstructionsAnswerUnlessBufLenExceedsTheBuffer : Prop :=
  ∀ (i : Instr) (s : State),
    ((i.isCommand = false ∨ s.fsm ≠ .idle ∨ s.bufLen.toNat ≤ s.bufSize.toNat ∨
        ∃ g, i = .tagsize g ∧ s.params.id3Unit = .absent) → ∃ t, exec i s = .next t) ∧
    ((i.isCommand = true ∧ s.fsm = .idle ∧ s.bufSize.toNat < s.bufLen.toNat ∧
        ¬∃ g, i = .tagsize g ∧ s.params.id3Unit = .absent) →
      exec i s = .refused .bufLenAboveBuffer)

/-- The frame of every instruction: registers, parameters, buffer and the agents' data that no
instruction writes; the result header for the commands; the latched values and CMDERR for header
words; and every byte of the buffer reads as before. What it says of header words executed outside SCAN
is the model's choice (log 7). -/
def Obligations.InstructionFrame : Prop :=
  ∀ (i : Instr) (s t : State), exec i s = .next t →
    t.params = s.params ∧ t.bufLen = s.bufLen ∧ t.argStart = s.argStart ∧ t.argEnd = s.argEnd ∧
    t.tagSize = s.tagSize ∧ t.mem = s.mem ∧ t.bufSize = s.bufSize ∧ t.bufEpoch = s.bufEpoch ∧
    t.inputs = s.inputs ∧ t.rdata = s.rdata ∧ (∀ o, memRead t o = memRead s o) ∧
    (i.isCommand = true → t.hdr = s.hdr ∧ (s.fsm ≠ .idle →
      t.done = s.done ∧ t.fsm = s.fsm ∧ t.cur = s.cur ∧ t.lim = s.lim ∧ t.len = s.len) ∧
      (t.cmdErr = s.cmdErr ∨ t.cmdErr = true)) ∧
    (i.isCommand = false → t.cmdErr = s.cmdErr ∧ t.lim = s.lim ∧ t.len = s.len ∧
      (t.fsm = s.fsm → t.hdr = s.hdr ∧ t.done = s.done) ∧
      (t.fsm ≠ s.fsm → s.fsm = .scan ∧ t.fsm = .idle ∧ t.done = true ∧ t.cur = s.cur))

/-! ### A step runs the decoded instruction -/

/-- When the next event is the host's 32-bit write to CMD of a word that decodes to `i`, the step is
`exec i`, with that event taken off the list. -/
def Obligations.StepRunsTheWrittenCommand : Prop :=
  ∀ (s : State) (v : Word) (i : Instr) (rest : List Input),
    s.inputs = .write 0x00 32 v :: rest → decodeCmd v = .ok i →
    step s = exec i { s with inputs := rest }

/-- When it is the FSM's turn in SCAN, the cursor is inside limit and length and the four bytes there
are `b0 b1 b2 b3`, the step is `exec` of the row their big-endian word decodes to (20 R64, 41 R171). -/
def Obligations.StepRunsTheFetchedHeaderWord : Prop :=
  ∀ (s : State) (b0 b1 b2 b3 : Byte), s.fsm = .scan →
    s.cur.toNat ≤ s.lim.toNat → s.cur.toNat + 4 ≤ s.len.toNat →
    memRead s s.cur.toNat = some b0 → memRead s (s.cur.toNat + 1) = some b1 →
    memRead s (s.cur.toNat + 2) = some b2 → memRead s (s.cur.toNat + 3) = some b3 →
    (s.inputs = [] → step s = exec (decodeHdr (b0 ++ b1 ++ b2 ++ b3)) s) ∧
    (∀ rest, s.inputs = .fsm :: rest →
      step s = exec (decodeHdr (b0 ++ b1 ++ b2 ++ b3)) { s with inputs := rest })

/-- A word placed by `withFetchWord` (the model's own, log 20) is run by the very next step: a command
word by `exec` on the state itself, a header word by `exec` on the state the placing leaves, less the FSM's turn. -/
def Obligations.PlacedWordIsRunByTheNextStep : Prop :=
  ∀ (s : State) (w : Nat),
    (∀ i, portOfTableWord (tableWord 32 w) = .cmd → decodeTableWord 32 w = some i →
      step (s.withFetchWord 32 w) = exec i s) ∧
    (∀ i, portOfTableWord (tableWord 32 w) = .buffer → decodeTableWord 32 w = some i →
      step (s.withFetchWord 32 w) = exec i { s.withFetchWord 32 w with inputs := s.inputs } ∧
      (s.withFetchWord 32 w).fsm = .scan ∧
      (s.withFetchWord 32 w).cur.toNat ≤ (s.withFetchWord 32 w).lim.toNat ∧
      (s.withFetchWord 32 w).cur.toNat + 4 ≤ (s.withFetchWord 32 w).len.toNat)

/-- The scan step as 41 R171 writes it, at every turn of the FSM, given by an event or left over: past
the limit the command completes with `INVALID` and nothing is read, else it completes with the header at
the cursor when that is `VALID`, else the cursor moves on by 1. -/
def Obligations.ScanStepExaminesTheCandidate : Prop :=
  ∀ s : State, s.fsm = .scan → s.fsmTurn →
    (s.lim.toNat < s.cur.toNat →
      step s = .next (complete .invalid { s with inputs := s.inputs.tail })) ∧
    (s.cur.toNat ≤ s.lim.toNat → headerAt s s.cur.toNat = some .invalid →
      step s = .next { s with inputs := s.inputs.tail, cur := s.cur + 1 }) ∧
    (∀ r, s.cur.toNat ≤ s.lim.toNat → headerAt s s.cur.toNat = some (.valid r) →
      step s = .next (complete (.valid r) { s with inputs := s.inputs.tail })) ∧
    (s.len.toNat < s.cur.toNat + 4 → headerAt s s.cur.toNat = some .invalid)

/-- The tag step (42 R192), at every turn of the FSM: it writes TAG_SIZE, completes, and leaves the result
header; a buffer shorter than 10 bytes gives 0 without a read (R191). -/
def Obligations.TagStepWritesOnlyTagSize : Prop :=
  ∀ s : State, s.fsm = .tag → s.fsmTurn →
    (s.len.toNat < 10 → step s = .next { s with
      inputs := s.inputs.tail, tagSize := 0, fsm := .idle, done := true }) ∧
    (∀ b : Fin 10 → Byte, 10 ≤ s.len.toNat →
      (∀ k : Fin 10, memRead s k.val = some (b k)) →
      step s = .next { s with
        inputs := s.inputs.tail,
        tagSize := tagSizeOfPrefix (b 0) (b 1) (b 2) (b 5) (b 6) (b 7) (b 8) (b 9),
        fsm := .idle, done := true })

/-- In IDLE the FSM has no step (10 R41): a turn given to it changes nothing, nor does a step of the
model with no event to come (the model's choice, log 3). -/
def Obligations.IdleFsmTakesNoStep : Prop :=
  ∀ s : State, s.fsm = .idle →
    (s.inputs = [] → step s = .next s) ∧
    (∀ rest, s.inputs = .fsm :: rest → step s = .next { s with inputs := rest })

/-! ### The register file -/

/-- What a 32-bit read of each register returns (10 R20 to R36), with no side effect (R21d). -/
def Obligations.ReadsReturnTheRegisterAndChangeNothing : Prop :=
  ∀ (s : State) (offset : Nat) (rest : List Input), s.inputs = .read offset 32 :: rest →
    (offset = 0x00 → step s = .next { s with inputs := rest, rdata := 0 }) ∧
    (offset = 0x04 → step s = .next { s with inputs := rest, rdata := s.statusWord }) ∧
    (offset = 0x08 → step s = .next { s with inputs := rest, rdata := s.bufLen }) ∧
    (offset = 0x0C → step s = .next { s with inputs := rest, rdata := s.argStart }) ∧
    (offset = 0x10 → step s = .next { s with inputs := rest, rdata := s.argEnd }) ∧
    (offset = 0x14 → step s = .next { s with inputs := rest, rdata := s.hdr.offset }) ∧
    (offset = 0x18 → step s = .next { s with inputs := rest, rdata := s.hdr.word }) ∧
    (offset = 0x1C →
      step s = .next { s with inputs := rest, rdata := s.hdr.fields.setWidth 32 }) ∧
    (offset = 0x20 →
      step s = .next { s with inputs := rest, rdata := s.hdr.bitrate.setWidth 32 }) ∧
    (offset = 0x24 →
      step s = .next { s with inputs := rest, rdata := s.hdr.srate.setWidth 32 }) ∧
    (offset = 0x28 →
      step s = .next { s with inputs := rest, rdata := s.hdr.frameSize.setWidth 32 }) ∧
    (offset = 0x2C → step s = .next { s with
      inputs := rest, rdata := if s.params.id3Unit = .absent then 0 else s.tagSize })

/-- STATUS bit by bit (10 R23): BUSY exactly when the FSM is not idle, DONE, FOUND equal to
HDR_FIELDS.VALID, CMDERR, and 0 above; the `done` output is DONE (R48). -/
def Obligations.StatusBitsAreTheFlags : Prop :=
  ∀ s : State,
    (s.statusWord.getLsbD 0 = true ↔ s.fsm ≠ .idle) ∧
    s.statusWord.getLsbD 1 = s.done ∧ s.statusWord.getLsbD 2 = s.hdr.fields.getLsbD 0 ∧
    s.statusWord.getLsbD 3 = s.cmdErr ∧ s.statusWord.extractLsb' 4 28 = 0 ∧
    s.doneLevel = s.done

/-- Writes to the registers other than CMD: the three argument registers take the value, STATUS clears
CMDERR when bit 3 is 1, and the read-only registers ignore the write (10 R21b, R23 to R35). -/
def Obligations.WritesToRegistersTouchOnlyTheirOwn : Prop :=
  ∀ (s : State) (offset : Nat) (v : Word) (rest : List Input),
    s.inputs = .write offset 32 v :: rest →
    (offset = 0x04 → v.getLsbD 3 = true →
      step s = .next { s with inputs := rest, cmdErr := false }) ∧
    (offset = 0x04 → v.getLsbD 3 = false → step s = .next { s with inputs := rest }) ∧
    (offset = 0x08 → step s = .next { s with inputs := rest, bufLen := v }) ∧
    (offset = 0x0C → step s = .next { s with inputs := rest, argStart := v }) ∧
    (offset = 0x10 → step s = .next { s with inputs := rest, argEnd := v }) ∧
    (offset ∈ [0x14, 0x18, 0x1C, 0x20, 0x24, 0x28, 0x2C] → step s = .next { s with inputs := rest })

/-- "Offsets 0x30, 0x34, 0x38 and 0x3C are reserved. They read 0 and ignore writes" (10 R36). -/
def Obligations.ReservedOffsetsReadZeroAndIgnoreWrites : Prop :=
  ∀ (s : State) (offset : Nat) (rest : List Input), offset ∈ [0x30, 0x34, 0x38, 0x3C] →
    (s.inputs = .read offset 32 :: rest → step s = .next { s with inputs := rest, rdata := 0 }) ∧
    (∀ v, s.inputs = .write offset 32 v :: rest → step s = .next { s with inputs := rest })

/-- A register access that is not 32 bits wide, is misaligned, or lies outside 0x00 to 0x3C is refused
(10 R21a, 20 R66); so is a write to CMD that would be accepted (41 R160) while BUF_LEN exceeds the
buffer's size, which has no meaning (70 R230, refused there: log 11); and no other register access is. -/
def Obligations.OnlyIllegalAccessesAreRefused : Prop :=
  ∀ (s : State) (offset width : Nat) (v : Word) (rest : List Input),
    ((s.inputs = .write offset width v :: rest ∨ s.inputs = .read offset width :: rest) →
      (width ≠ 32 ∨ offset % 4 ≠ 0 ∨ 0x3C < offset) → step s = .refused .badRegisterAccess) ∧
    (s.inputs = .read offset width :: rest → width = 32 → offset % 4 = 0 → offset ≤ 0x3C →
      ∃ t, step s = .next t) ∧
    (s.inputs = .write offset width v :: rest → width = 32 → offset % 4 = 0 → offset ≤ 0x3C →
      ((offset = 0x00 ∧ acceptsWrite v s = true ∧ s.bufSize.toNat < s.bufLen.toNat) →
        step s = .refused .bufLenAboveBuffer) ∧
      ((offset ≠ 0x00 ∨ acceptsWrite v s = false ∨ s.bufLen.toNat ≤ s.bufSize.toNat) →
        ∃ t, step s = .next t))

/-- Polling (30 R98): while BUSY = 1 the poll reads STATUS and comes again after one turn of the FSM
(the model's choice of interleaving, log 2); when BUSY = 0 it ends. -/
def Obligations.PollingEndsExactlyWhenNotBusy : Prop :=
  ∀ (s : State) (rest : List Input), s.inputs = .wait :: rest →
    (s.fsm ≠ .idle → step s = .next { s with
      inputs := .fsm :: .wait :: rest, rdata := s.statusWord }) ∧
    (s.fsm = .idle → step s = .next { s with inputs := rest, rdata := s.statusWord })

/-- The pseudo-instructions are exactly the bus accesses of 30 R98 and R99. -/
def Obligations.PseudoInstructionsExpandExactly : Prop :=
  ∀ a b : Word,
    inputsOfProgram (expandPseudo (.setbuf a)) = [.write 0x08 32 a] ∧
    inputsOfProgram (expandPseudo (.parse a)) = [.write 0x0C 32 a, .write 0x00 32 1, .wait] ∧
    inputsOfProgram (expandPseudo (.locate a b)) =
      [.write 0x0C 32 a, .write 0x10 32 b, .write 0x00 32 2, .wait] ∧
    inputsOfProgram (expandPseudo (.advance a)) = [.write 0x10 32 a, .write 0x00 32 3, .wait] ∧
    inputsOfProgram (expandPseudo .tagsize) = [.write 0x00 32 4, .wait] ∧
    inputsOfProgram (expandPseudo .clrerr) = [.write 0x04 32 8]

/-! ### Reset -/

/-- The reset event (70 R220): from any state, a command in progress included, every register reads 0,
the FSM is idle with its internal state 0, the `done` output is 0 (10 R50), and the tables do not
change. -/
def Obligations.ResetEventClearsEveryRegister : Prop :=
  ∀ (s : State) (rest : List Input), s.inputs = .reset :: rest →
    ∃ t, step s = .next t ∧ (∀ r : Reg, readReg r t = 0) ∧ t.fsm = .idle ∧ t.cur = 0 ∧
      t.lim = 0 ∧ t.len = 0 ∧ t.tagSize = 0 ∧ t.doneLevel = false ∧ t.params = s.params ∧
      t.mem = s.mem ∧ t.bufSize = s.bufSize

/-- Right after reset every register reads 0, the FSM is idle and the internal state is 0 (10 R50);
the parameters are the defaults of 00 R6. -/
def Obligations.ResetStateReadsZero : Prop :=
  (∀ r : Reg, readReg r State.reset = 0) ∧ State.reset.fsm = .idle ∧ State.reset.cur = 0 ∧
  State.reset.lim = 0 ∧ State.reset.len = 0 ∧ State.reset.doneLevel = false ∧
  State.reset.hdr = resultImage .invalid ∧ State.reset.params.id3Unit = .present ∧
  State.reset.params.bitrateLut = defaultBitrateLut

/-! ### Whole-machine rules -/

/-- The state right after reset meets the invariant. -/
def Obligations.ResetStateMeetsTheInvariant : Prop := State.reset.Inv

/-- Every step keeps the invariant, from every state that meets it: the memory stays canonical and
inside the buffer, the result header stays one whole header value, BUSY and DONE are never 1 together,
no tag step without the unit, a running command's latched length is not above the buffer's size, and
the bounds of TAG_SIZE and of the cursor hold. -/
def Obligations.StepKeepsTheInvariant : Prop :=
  ∀ s t : State, s.Inv → step s = .next t → t.Inv

/-- The six result registers change only in the step that completes a PARSE, LOCATE or ADVANCE, and at
reset (10 R37). -/
def Obligations.ResultHeaderChangesOnlyAtCompletionOrReset : Prop :=
  ∀ s t : State, step s = .next t → t.hdr ≠ s.hdr →
    (s.fsm = .scan ∧ t.fsm = .idle ∧ t.done = true ∧
        (s.inputs = [] ∨ ∃ rest, s.inputs = .fsm :: rest)) ∨
      (∃ rest, s.inputs = .reset :: rest)

/-- CMDERR is sticky (60 R204): only reset and a write of 1 to STATUS bit 3 clear it, and only a
write to CMD sets it. -/
def Obligations.CmdErrIsSticky : Prop :=
  ∀ s t : State, step s = .next t →
    (s.cmdErr = true → t.cmdErr = false →
      (∃ rest, s.inputs = .reset :: rest) ∨
      (∃ v rest, s.inputs = .write 0x04 32 v :: rest ∧ v.getLsbD 3 = true)) ∧
    (s.cmdErr = false → t.cmdErr = true → ∃ v rest, s.inputs = .write 0x00 32 v :: rest)

/-- Within a SCAN command no step decreases the cursor: it stays or increases by exactly 1, without
wrapping, and the latched limit and length stay (10 R42, R45). -/
def Obligations.CursorOnlyMovesUpByOne : Prop :=
  ∀ s t : State, s.fsm = .scan → t.fsm = .scan → step s = .next t →
    (t.cur = s.cur ∨ t.cur.toNat = s.cur.toNat + 1) ∧ t.lim = s.lim ∧ t.len = s.len

/-- The `done` level rises only at the completion of a command and falls only at the acceptance of
one or at reset (60 R205, 10 R23). -/
def Obligations.DoneRisesAtCompletionAndFallsAtAcceptance : Prop :=
  ∀ s t : State, step s = .next t →
    (s.doneLevel = false → t.doneLevel = true → s.fsm ≠ .idle ∧ t.fsm = .idle) ∧
    (s.doneLevel = true → t.doneLevel = false →
      (∃ rest, s.inputs = .reset :: rest) ∨
      (s.fsm = .idle ∧ t.fsm ≠ .idle ∧ ∃ v rest, s.inputs = .write 0x00 32 v :: rest))

/-- A host that keeps its duties never meets a refusal (60 R200, 70 R222): when the next event breaks
no rule of the interface and no duty, and a running command's latched length is not above the buffer's
size (which every step keeps: StepKeepsTheInvariant), the step answers a next state. -/
def Obligations.DutifulStepsAlwaysAnswer : Prop :=
  ∀ s : State, (s.busy = true → bufferCovers s = true) →
    (∀ e rest, s.inputs = e :: rest → keepsDuties e s = true) → ∃ t, step s = .next t

/-- The block never writes the buffer (20 R60): only the loading collaborator's two events change a
byte or the size of it. -/
def Obligations.OnlyTheLoaderChangesTheBuffer : Prop :=
  ∀ s t : State, step s = .next t →
    (∀ size rest, s.inputs ≠ .newBuffer size :: rest) →
    (∀ o b rest, s.inputs ≠ .fill o b :: rest) →
    t.mem = s.mem ∧ t.bufSize = s.bufSize ∧ (∀ o, memRead t o = memRead s o)

/-- While a command runs, no register access and no poll of the host disturbs it (41 R177, 70 R226 to
R228): FSM state, cursor, limit, length, results and the buffer stay. -/
def Obligations.HostAccessesLeaveARunningCommandAlone : Prop :=
  ∀ (s t : State) (e : Input) (rest : List Input), s.fsm ≠ .idle → s.inputs = e :: rest →
    ((∃ offset width v, e = .write offset width v) ∨ (∃ offset width, e = .read offset width) ∨
      e = .wait) →
    step s = .next t →
    t.fsm = s.fsm ∧ t.cur = s.cur ∧ t.lim = s.lim ∧ t.len = s.len ∧ t.hdr = s.hdr ∧
    t.tagSize = s.tagSize ∧ t.done = s.done ∧ t.params = s.params ∧
    (∀ o, memRead t o = memRead s o)

/-- What an FSM step does, at every turn of the FSM, depends only on the tables, the latched values and
the buffer's bytes below the latched length (41 R177): two states that agree on those, whatever their
registers and whatever events stand behind the turn, take steps that agree on them again, with the same
result. -/
def Obligations.FsmStepDependsOnlyOnWhatWasLatched : Prop :=
  ∀ s s' t : State,
    s'.params = s.params → s'.fsm = s.fsm → s'.cur = s.cur → s'.lim = s.lim → s'.len = s.len →
    s.fsm ≠ .idle → s.fsmTurn → s'.fsmTurn →
    (∀ o, o < s.len.toNat → memRead s' o = memRead s o) →
    step s = .next t →
    ∃ t', step s' = .next t' ∧ t'.fsm = t.fsm ∧ t'.cur = t.cur ∧ t'.lim = t.lim ∧ t'.len = t.len ∧
      t'.params = t.params ∧ (∀ o, o < t.len.toNat → memRead t' o = memRead t o) ∧
      (s.fsm = .scan → t.fsm = .idle → t'.hdr = t.hdr) ∧
      (s.fsm = .tag → t'.tagSize = t.tagSize) ∧ (t.fsm = .idle → t'.done = t.done) ∧
      t'.inputs = s'.inputs.tail

/-! ### Whole commands -/

/-- A scan left alone completes after at most max(lim - c0 + 2, 1) steps (41 R172) with the header at
the least valid offset from the cursor to the limit, or `INVALID` (R173), and changes nothing but the
cursor, the result header, DONE and the FSM state. -/
def Obligations.ScanCompletesWithTheFirstValidHeader : Prop :=
  ∀ s : State, s.fsm = .scan → s.inputs = [] → bufferCovers s = true →
    ∃ (k : Nat) (h : Header) (c : Cursor),
      k ≤ max (s.lim.toNat + 2 - s.cur.toNat) 1 ∧
      IsScanResult s s.cur.toNat s.lim.toNat h ∧
      Host.Core.run Sys2Proof.core k s = .next { s with
        hdr := resultImage h, cur := c, fsm := .idle, done := true }

/-- PARSE, whole (41 R162): from IDLE, the write and at most two FSM steps later the result header is
that of the one candidate at ARG_START, and ARG_END plays no part. -/
def Obligations.ParseReturnsItsOneCandidate : Prop :=
  ∀ (s : State) (v : Word), s.fsm = .idle → v.extractLsb' 0 3 = 1#3 →
    s.inputs = [.write 0x00 32 v] → s.bufLen.toNat ≤ s.bufSize.toNat →
    ∃ (k : Nat) (h : Header) (t : State),
      k ≤ 3 ∧ headerAt { s with len := s.bufLen } s.argStart.toNat = some h ∧
      Host.Core.run Sys2Proof.core k s = .next t ∧ t.inputs = [] ∧
      t.hdr = resultImage h ∧ t.fsm = .idle ∧ t.done = true ∧ t.cmdErr = s.cmdErr ∧
      t.tagSize = s.tagSize ∧ t.mem = s.mem

/-- LOCATE, whole (41 R163): from IDLE, the result is the first valid header from ARG_START to ARG_END
inclusive, or `INVALID`. -/
def Obligations.LocateReturnsTheFirstValidHeader : Prop :=
  ∀ (s : State) (v : Word), s.fsm = .idle → v.extractLsb' 0 3 = 2#3 →
    s.inputs = [.write 0x00 32 v] → s.bufLen.toNat ≤ s.bufSize.toNat →
    ∃ (k : Nat) (h : Header) (t : State),
      IsScanResult { s with len := s.bufLen } s.argStart.toNat s.argEnd.toNat h ∧
      Host.Core.run Sys2Proof.core k s = .next t ∧ t.inputs = [] ∧
      t.hdr = resultImage h ∧ t.fsm = .idle ∧ t.done = true ∧ t.cmdErr = s.cmdErr ∧
      t.tagSize = s.tagSize ∧ t.mem = s.mem

/-- ADVANCE, whole (41 R164, R175): from IDLE it ends with the scan result from its origin to ARG_END,
and a VALID result stands at a strictly higher offset than the previous one; with no previous header
the result is `INVALID` (R166). -/
def Obligations.AdvanceReturnsAStrictlyHigherOffset : Prop :=
  ∀ (s : State) (v : Word), s.fsm = .idle → v.extractLsb' 0 3 = 3#3 →
    s.inputs = [.write 0x00 32 v] → s.bufLen.toNat ≤ s.bufSize.toNat →
    ∃ (k : Nat) (h : Header) (t : State),
      IsScanResult { s with len := s.bufLen } (advanceOrigin s).toNat s.argEnd.toNat h ∧
      Host.Core.run Sys2Proof.core k s = .next t ∧ t.inputs = [] ∧
      t.hdr = resultImage h ∧ t.fsm = .idle ∧ t.done = true ∧
      (s.found = false → h = .invalid) ∧
      (s.found = true → t.found = true → s.hdr.offset.toNat < t.hdr.offset.toNat)

/-- ADVANCE over frames back to back (41 R164, R176): when the previous header is valid with a frame
size other than 0 and the candidate right behind its frame, not past ARG_END, is a valid header, then
the write and one scan step later that header is the result. -/
def Obligations.AdvanceLandsOnTheNextFrame : Prop :=
  ∀ (s : State) (v : Word) (r : HeaderRecord), s.fsm = .idle → v.extractLsb' 0 3 = 3#3 →
    s.inputs = [.write 0x00 32 v] → s.bufLen.toNat ≤ s.bufSize.toNat →
    s.found = true → s.hdr.frameSize ≠ 0 →
    s.hdr.offset.toNat + s.hdr.frameSize.toNat ≤ s.argEnd.toNat →
    headerAt { s with len := s.bufLen } (s.hdr.offset.toNat + s.hdr.frameSize.toNat) =
      some (.valid r) →
    ∃ t, Host.Core.run Sys2Proof.core 2 s = .next t ∧ t.hdr = resultImage (.valid r) ∧
      t.hdr.offset.toNat = s.hdr.offset.toNat + s.hdr.frameSize.toNat ∧ t.inputs = [] ∧
      t.fsm = .idle ∧ t.done = true

/-- The K-frame property (41 R176): over a buffer made of frames back to back from offset 0 to its end,
`LOCATE 0, BUF_LEN - 1` and then `k` times `ADVANCE` with the same end, each followed by its WAIT, runs to
the end and leaves the `k`-th frame's header, at the sum of the lengths before it; one ADVANCE more than
there are frames behind the first leaves `INVALID`. The FSM's turns between the polls of a WAIT are the
model's interleaving (log 2). -/
def Obligations.KFramesAreFoundInOrderThenInvalid : Prop :=
  ∀ (s : State) (fs : List HeaderRecord) (k : Nat), s.fsm = .idle →
    s.bufLen.toNat ≤ s.bufSize.toNat → fs ≠ [] → FramesFrom { s with len := s.bufLen } 0 fs →
    k ≤ fs.length → s.inputs = framesProgram (s.bufLen - 1) k →
    ∃ (n : Nat) (t : State), Host.Core.run Sys2Proof.core n s = .next t ∧ t.inputs = [] ∧
      t.fsm = .idle ∧ t.done = true ∧
      (∀ r, fs[k]? = some r → t.hdr = resultImage (.valid r) ∧ t.found = true ∧
        t.hdr.offset.toNat = ((fs.take k).map fun r => r.frameSize.toNat).sum) ∧
      (k = fs.length → t.hdr = resultImage .invalid ∧ t.found = false)

/-- `WAIT` ends after the command it follows has completed (30 R99): a poll loop issued while a scan runs
ends, with the FSM idle, DONE set and the scan's result in the result header; one issued while a TAGSIZE
runs ends with its result in TAG_SIZE and the result header as it was. Both in the model's interleaving of
polls and FSM turns (log 2), which is weakly fair (70 R232). -/
def Obligations.WaitEndsWithTheCommandsResult : Prop :=
  ∀ s : State, s.inputs = [.wait] → bufferCovers s = true →
    (s.fsm = .scan → ∃ (k : Nat) (h : Header) (t : State),
      IsScanResult s s.cur.toNat s.lim.toNat h ∧
      Host.Core.run Sys2Proof.core k s = .next t ∧ t.inputs = [] ∧ t.fsm = .idle ∧
      t.done = true ∧ t.hdr = resultImage h ∧ t.rdata.getLsbD 0 = false) ∧
    (s.fsm = .tag → ∃ (k : Nat) (v : Word) (t : State),
      tagSizeOf s = some v ∧
      Host.Core.run Sys2Proof.core k s = .next t ∧ t.inputs = [] ∧ t.fsm = .idle ∧
      t.done = true ∧ t.tagSize = v ∧ t.hdr = s.hdr ∧ t.rdata.getLsbD 0 = false)

/-- TAGSIZE, whole (42 R190 to R192): from IDLE with the unit present, the write and one FSM step
later TAG_SIZE holds the tag size of the buffer's first 10 bytes (0 when it is shorter) and the result
header is as it was. -/
def Obligations.TagsizeMeasuresTheLeadingTag : Prop :=
  ∀ (s : State) (v : Word) (b : Fin 10 → Byte), s.fsm = .idle → s.params.id3Unit = .present →
    v.extractLsb' 0 3 = 4#3 → s.inputs = [.write 0x00 32 v] →
    s.bufLen.toNat ≤ s.bufSize.toNat →
    (10 ≤ s.bufLen.toNat → ∀ k : Fin 10, memRead s k.val = some (b k)) →
    Host.Core.run Sys2Proof.core 2 s = .next { s with
      inputs := [], len := s.bufLen, fsm := .idle, done := true,
      tagSize := if s.bufLen.toNat < 10 then 0
        else tagSizeOfPrefix (b 0) (b 1) (b 2) (b 5) (b 6) (b 7) (b 8) (b 9) }

/-! ### The loading collaborator -/

/-- What the loading collaborator's two moves do (70 R222), where they break no duty (20 R72): a filled
byte reads back as filled, every other byte reads as before, and nothing else changes; of a new buffer
exactly the offsets below its size can be read, each as a byte nobody filled (a free value, log 10), and
nothing but the buffer changes. -/
def Obligations.LoaderFillsBytesAndHandsOverBuffers : Prop :=
  ∀ (s : State) (rest : List Input),
    (∀ (o : Word) (b : Byte), s.inputs = .fill o b :: rest → o.toNat < s.bufSize.toNat →
      (s.busy = false ∨ s.len.toNat ≤ o.toNat) →
      ∃ m t, step s = .next t ∧ t = { s with inputs := rest, mem := m } ∧
        memRead t o.toNat = some b ∧ (∀ a, a ≠ o.toNat → memRead t a = memRead s a)) ∧
    (∀ size : Word, s.inputs = .newBuffer size :: rest → (s.busy = false ∨ s.len = 0) →
      ∃ m e t, step s = .next t ∧
        t = { s with inputs := rest, mem := m, bufSize := size, bufEpoch := e } ∧
        ∀ a, memRead t a =
          if a < size.toNat then some (Config.unfilledByte e a) else none)

/-- Where the loading collaborator's moves stop: a change of a byte below the latched length while a
command runs has no meaning (20 R72, 70 R225), whether one byte is filled or the whole buffer is
replaced, and neither has a byte filled past the buffer's end (20 R61, 70 R230). -/
def Obligations.LoaderMovesThatBreakADutyAreRefused : Prop :=
  ∀ (s : State) (rest : List Input),
    (∀ (o : Word) (b : Byte), s.inputs = .fill o b :: rest →
      (s.busy = true → o.toNat < s.len.toNat → step s = .refused .bufferChangedWhileBusy) ∧
      ((s.busy = false ∨ s.len.toNat ≤ o.toNat) → s.bufSize.toNat ≤ o.toNat →
        step s = .refused .outsideBuffer)) ∧
    (∀ size : Word, s.inputs = .newBuffer size :: rest → s.busy = true → s.len ≠ 0 →
      step s = .refused .bufferChangedWhileBusy)
end

