-- ==== Sys2Proof/Laws/Decode.lean ====
section
/-!
SUPPORT. The bitfield extractor and the word assembler undo each other (30 R80, R82), the bytes of a
word give the word back (20 R64), and which register an access reaches (10 R20, R21).
-/

namespace Sys2Proof

/-- Assembling a word's extracted fields gives the word: the 13 fields cover all 32 bits. -/
theorem headerWord_extract (w : Word) : headerWord (extract w) = w := by
  unfold headerWord extract
  apply BitVec.eq_of_getElem_eq
  intro i hi
  simp only [BitVec.getElem_append, BitVec.getElem_extractLsb']
  have hi' : i < 32 := hi
  interval_cases i <;> simp [BitVec.getLsbD_eq_getElem]

/-- Extracting from an assembled word gives the fields back: no two fields overlap. -/
theorem extract_headerWord (r : RawFields) : extract (headerWord r) = r := by
  cases r
  unfold headerWord extract
  simp only [RawFields.mk.injEq]
  refine ⟨?_, ?_, ?_, ?_, ?_, ?_, ?_, ?_, ?_, ?_, ?_, ?_, ?_⟩ <;>
  · apply BitVec.eq_of_getElem_eq
    intro i hi
    simp only [BitVec.getLsbD_append, BitVec.getElem_extractLsb']
    interval_cases i <;> simp [BitVec.getLsbD_eq_getElem]

/-- The big-endian bytes of a word assemble to the word. -/
theorem wordOfBytes_beBytes (w : Word) : wordOfBytes (beBytes w) = some w := by
  unfold wordOfBytes beBytes be32
  simp only [Option.some.injEq]
  apply BitVec.eq_of_getElem_eq
  intro i hi
  simp only [BitVec.getElem_append, BitVec.getElem_extractLsb']
  have hi' : i < 32 := hi
  interval_cases i <;> simp [BitVec.getLsbD_eq_getElem]

/-- Only offset 0, in a 32-bit access, reaches CMD (10 R20). -/
theorem regAt_eq_cmd {offset width : Nat} (h : regAt offset width = some .cmd) :
    offset = 0 ∧ width = 32 := by
  unfold regAt at h
  split at h
  · rename_i hw
    have hk : offset / 4 = 0 := by
      rcases Nat.lt_or_ge (offset / 4) 16 with hlt | hge
      · generalize offset / 4 = k at h hlt
        interval_cases k <;> simp [allRegs] at h ⊢
      · rw [List.getElem?_eq_none (by simpa [allRegs] using hge)] at h
        cases h
    omega
  · cases h

/-- Only offset 4, in a 32-bit access, reaches STATUS (10 R20). -/
theorem regAt_eq_status {offset width : Nat} (h : regAt offset width = some .status) :
    offset = 4 ∧ width = 32 := by
  unfold regAt at h
  split at h
  · rename_i hw
    have hk : offset / 4 = 1 := by
      rcases Nat.lt_or_ge (offset / 4) 16 with hlt | hge
      · generalize offset / 4 = k at h hlt
        interval_cases k <;> simp [allRegs] at h ⊢
      · rw [List.getElem?_eq_none (by simpa [allRegs] using hge)] at h
        cases h
    omega
  · cases h

end Sys2Proof
end

