-- ==== Sys2Proof/Laws/Memory.lean ====
section
/-!
SUPPORT. The laws of the buffer's memory: a read after a write, the canonical form kept by every
write, which offsets a write lists, and that canonical memories with equal reads are equal data.
-/

namespace Sys2Proof.Machine

/-- Reading an offset just written gives the byte written. -/
theorem Memory.read_write_same (m : Memory) (a : Nat) (b : Byte) :
    Memory.read (Memory.write m a b) a = some b := by
  induction m with
  | nil => simp [Memory.write, Memory.read]
  | cons c m ih =>
    obtain ⟨k, c⟩ := c
    simp only [Memory.write]
    split
    · simp [Memory.read]
    · split
      · simp [Memory.read]
      · rename_i h1 h2
        simp [Memory.read, Ne.symm h2, ih]

/-- A write leaves every other offset alone. -/
theorem Memory.read_write_other (m : Memory) (a a' : Nat) (b : Byte) (h : a' ≠ a) :
    Memory.read (Memory.write m a b) a' = Memory.read m a' := by
  induction m with
  | nil => simp [Memory.write, Memory.read, Ne.symm h]
  | cons c m ih =>
    obtain ⟨k, c⟩ := c
    simp only [Memory.write]
    split
    · simp [Memory.read, Ne.symm h]
    · split
      · rename_i h1 h2
        subst h2
        simp [Memory.read, Ne.symm h]
      · simp [Memory.read, ih]

/-- The canonical form, said of the head: every offset behind it is larger. -/
theorem Memory.wf_cons_iff (k : Nat) (c : Byte) (m : Memory) :
    Memory.wf ((k, c) :: m) = true ↔ (∀ e ∈ m, k < e.1) ∧ Memory.wf m = true := by
  induction m generalizing k c with
  | nil => simp [Memory.wf]
  | cons d m ih =>
    obtain ⟨k', c'⟩ := d
    simp only [Memory.wf, Bool.and_eq_true, decide_eq_true_eq, List.mem_cons, forall_eq_or_imp]
    constructor
    · rintro ⟨hlt, hw⟩
      exact ⟨⟨hlt, fun e he => Nat.lt_trans hlt (((ih k' c').mp hw).1 e he)⟩, hw⟩
    · rintro ⟨⟨hlt, -⟩, hw⟩
      exact ⟨hlt, hw⟩

/-- What a write lists: what was listed, and the offset written. -/
theorem Memory.mem_write {m : Memory} {a : Nat} {b : Byte} {e : Host.Cell}
    (h : e ∈ Memory.write m a b) : e = (a, b) ∨ e ∈ m := by
  induction m with
  | nil => simpa [Memory.write] using h
  | cons c m ih =>
    obtain ⟨k, c⟩ := c
    simp only [Memory.write] at h
    split at h
    · rcases List.mem_cons.mp h with h | h
      · exact .inl h
      · exact .inr h
    · split at h
      · rcases List.mem_cons.mp h with h | h
        · exact .inl h
        · exact .inr (List.mem_cons_of_mem _ h)
      · rcases List.mem_cons.mp h with h | h
        · exact .inr (h ▸ List.mem_cons_self)
        · rcases ih h with h | h
          · exact .inl h
          · exact .inr (List.mem_cons_of_mem _ h)

/-- A write keeps the canonical form. -/
theorem Memory.write_wf (m : Memory) (a : Nat) (b : Byte) (h : Memory.wf m = true) :
    Memory.wf (Memory.write m a b) = true := by
  induction m with
  | nil => simp [Memory.write, Memory.wf]
  | cons c m ih =>
    obtain ⟨k, c⟩ := c
    have hm := (Memory.wf_cons_iff k c m).mp h
    simp only [Memory.write]
    split
    · rename_i hlt
      refine (Memory.wf_cons_iff _ _ _).mpr ⟨fun e he => ?_, h⟩
      rcases List.mem_cons.mp he with rfl | he
      · exact hlt
      · exact Nat.lt_trans hlt (hm.1 e he)
    · split
      · rename_i heq
        subst heq
        exact (Memory.wf_cons_iff _ _ _).mpr hm
      · rename_i h1 h2
        refine (Memory.wf_cons_iff _ _ _).mpr ⟨fun e he => ?_, ih hm.2⟩
        rcases Memory.mem_write he with rfl | he
        · exact Nat.lt_of_le_of_ne (Nat.not_lt.mp h1) (Ne.symm h2)
        · exact hm.1 e he

/-- Storing a word keeps the canonical form. -/
theorem Memory.writeWord_wf (m : Memory) (o : Nat) (w : Word) (h : Memory.wf m = true) :
    Memory.wf (Memory.writeWord m o w) = true :=
  Memory.write_wf _ _ _ (Memory.write_wf _ _ _ (Memory.write_wf _ _ _ (Memory.write_wf _ _ _ h)))

/-- An offset below every listed one reads as unlisted. -/
theorem Memory.read_of_lt (m : Memory) (a : Nat) (h : ∀ e ∈ m, a < e.1) :
    Memory.read m a = Memory.unlisted := by
  induction m with
  | nil => rfl
  | cons c m ih =>
    obtain ⟨k, c⟩ := c
    have hk : a < k := h (k, c) List.mem_cons_self
    simp only [Memory.read, Ne.symm (Nat.ne_of_lt hk), if_false]
    exact ih fun e he => h e (List.mem_cons_of_mem _ he)

/-- Canonical memories that read the same everywhere are equal data. -/
theorem Memory.ext_of_wf (m m' : Memory) (h : Memory.wf m = true) (h' : Memory.wf m' = true)
    (hr : ∀ a, Memory.read m a = Memory.read m' a) : m = m' := by
  induction m generalizing m' with
  | nil =>
    cases m' with
    | nil => rfl
    | cons c m' =>
      obtain ⟨k, c⟩ := c
      have hk := hr k
      simp [Memory.read, Memory.unlisted] at hk
  | cons c m ih =>
    obtain ⟨k, c⟩ := c
    have hm := (Memory.wf_cons_iff k c m).mp h
    cases m' with
    | nil =>
      have hk := hr k
      simp [Memory.read, Memory.unlisted] at hk
    | cons d m' =>
      obtain ⟨k', d⟩ := d
      have hm' := (Memory.wf_cons_iff k' d m').mp h'
      have hkk : k = k' := by
        rcases Nat.lt_trichotomy k k' with hlt | heq | hgt
        · have hk := hr k
          rw [Memory.read_of_lt ((k', d) :: m') k (by
            intro e he
            rcases List.mem_cons.mp he with rfl | he
            · exact hlt
            · exact Nat.lt_trans hlt (hm'.1 e he))] at hk
          simp [Memory.read, Memory.unlisted] at hk
        · exact heq
        · have hk := hr k'
          rw [Memory.read_of_lt ((k, c) :: m) k' (by
            intro e he
            rcases List.mem_cons.mp he with rfl | he
            · exact hgt
            · exact Nat.lt_trans hgt (hm.1 e he))] at hk
          simp [Memory.read, Memory.unlisted] at hk
      subst hkk
      have hcd : c = d := by simpa [Memory.read] using hr k
      subst hcd
      refine congrArg _ (ih m' hm.2 hm'.2 fun a => ?_)
      rcases Nat.lt_or_ge k a with hlt | hge
      · simpa [Memory.read, Nat.ne_of_lt hlt] using hr a
      · rw [Memory.read_of_lt m a fun e he => Nat.lt_of_le_of_lt hge (hm.1 e he),
          Memory.read_of_lt m' a fun e he => Nat.lt_of_le_of_lt hge (hm'.1 e he)]

/-- A read depends only on the buffer's own fields. -/
theorem memRead_congr {s t : State} (hm : t.mem = s.mem) (hz : t.bufSize = s.bufSize)
    (he : t.bufEpoch = s.bufEpoch) (o : Nat) : memRead t o = memRead s o := by
  simp only [memRead, hm, hz, he]

/-- A read inside the buffer's real size always gives a byte. -/
theorem memRead_isSome {s : State} {o : Nat} (h : o < s.bufSize.toNat) :
    ∃ b, memRead s o = some b := by
  simp only [memRead, h, if_true]
  cases hr : Memory.read s.mem o with
  | some b => exact ⟨b, rfl⟩
  | none => exact ⟨_, rfl⟩

/-- A big-endian read inside the buffer's real size always gives a word. -/
theorem read32BE_isSome {s : State} {o : Nat} (h : o + 4 ≤ s.bufSize.toNat) :
    ∃ w, read32BE s o = some w := by
  obtain ⟨b0, h0⟩ := memRead_isSome (s := s) (o := o) (by omega)
  obtain ⟨b1, h1⟩ := memRead_isSome (s := s) (o := o + 1) (by omega)
  obtain ⟨b2, h2⟩ := memRead_isSome (s := s) (o := o + 2) (by omega)
  obtain ⟨b3, h3⟩ := memRead_isSome (s := s) (o := o + 3) (by omega)
  exact ⟨be32 b0 b1 b2 b3, by simp only [read32BE, h0, h1, h2, h3]⟩

end Sys2Proof.Machine
end

