-- ==== Sys2Proof/Laws/Operands.lean ====
section
/-!
SUPPORT. What each decoder of the header datapath accepts, and what a `VALID` header is, said once.
-/

namespace Sys2Proof.Machine

theorem bitVec_two_cases (v : BitVec 2) : v = 0 ∨ v = 1 ∨ v = 2 ∨ v = 3 := by
  revert v; decide

/-- The version decoder rejects '01' only (40 R112). -/
theorem verDec_isSome (v : BitVec 2) : (∃ x, verDec v = some x) ↔ v ≠ 1#2 := by
  rcases bitVec_two_cases v with rfl | rfl | rfl | rfl <;> simp [verDec]

/-- The layer decoder rejects '00' only (40 R113). -/
theorem layDec_isSome (l : BitVec 2) : (∃ x, layDec l = some x) ↔ l ≠ 0#2 := by
  rcases bitVec_two_cases l with rfl | rfl | rfl | rfl <;> simp [layDec]

/-- The sample-rate indexer rejects '11' only (40 R127). -/
theorem srateOf_isSome (ver : Version) (j : BitVec 2) : (∃ x, srateOf ver j = some x) ↔ j ≠ 3#2 := by
  rcases bitVec_two_cases j with rfl | rfl | rfl | rfl <;> cases ver <;> simp [srateOf, srateLut]

/-- The bitrate indexer rejects '1111' only (40 R124), whatever the table. -/
theorem bitrateOf_isSome (t : BitrateLut) (ver : Version) (lay : Layer) (i : BitVec 4) :
    (∃ x, bitrateOf t ver lay i = some x) ↔ i ≠ 15#4 := by
  unfold bitrateOf
  split
  · rename_i h; subst h; simp
  · split
    · rename_i h; simp [h]
    · rename_i h
      have hi := i.isLt
      have hne : i.toNat ≠ 15 := fun h' => h (BitVec.eq_of_toNat_eq h')
      have hlt : i.toNat < 15 := by omega
      simp [hlt, h]

/-- Every rate of SRATE_LUT lies between 8000 and 48000 Hz (40 R128). -/
theorem srateOf_range {ver : Version} {j : BitVec 2} {sr : BitVec 16} (h : srateOf ver j = some sr) :
    8000 ≤ sr.toNat ∧ sr.toNat ≤ 48000 := by
  rcases bitVec_two_cases j with rfl | rfl | rfl | rfl <;> cases ver <;>
    simp [srateOf, srateLut] at h <;> subst h <;> decide

/-- `Decode` answers `VALID` exactly when the sync matches and all four decoders accept, with this
record (40 R141). -/
theorem decodeHeader_eq_valid_iff (t : BitrateLut) (w o : Word) (h : HeaderRecord) :
    decodeHeader t w o = .valid h ↔
      ∃ ver lay br sr, syncOK w = true ∧ verDec (w.extractLsb' 19 2) = some ver ∧
        layDec (w.extractLsb' 17 2) = some lay ∧
        bitrateOf t ver lay (w.extractLsb' 12 4) = some br ∧
        srateOf ver (w.extractLsb' 10 2) = some sr ∧
        h = { offset := o, word := w, version := ver, layer := lay, crc := w.extractLsb' 16 1,
              bitrate := br, srate := sr, padded := w.extractLsb' 9 1,
              chmode := chMode (w.extractLsb' 6 2), modeExt := modeExt lay (w.extractLsb' 4 2),
              copyright := w.extractLsb' 3 1, original := w.extractLsb' 2 1,
              emphasis := emph (w.extractLsb' 0 2),
              frameSize :=
                BitVec.ofNat 16 (frameSize br.toNat sr.toNat (w.extractLsb' 9 1).toNat) } := by
  unfold decodeHeader
  dsimp only [extract]
  split
  · rename_i hs; simp [hs]
  · rename_i hs
    have hs : syncOK w = true := by simpa using hs
    split
    · rename_i ver lay hv hl
      split
      · rename_i br sr hb hr
        simp only [Header.valid.injEq]
        constructor
        · rintro rfl
          exact ⟨ver, lay, br, sr, hs, hv, hl, hb, hr, rfl⟩
        · rintro ⟨ver', lay', br', sr', -, hv', hl', hb', hr', rfl⟩
          rw [hv] at hv'; cases hv'
          rw [hl] at hl'; cases hl'
          rw [hb] at hb'; cases hb'
          rw [hr] at hr'; cases hr'
          rfl
      · rename_i hn
        simp only [reduceCtorEq, false_iff]
        rintro ⟨ver', lay', br', sr', -, hv', hl', hb', hr', -⟩
        rw [hv] at hv'; cases hv'
        rw [hl] at hl'; cases hl'
        exact hn _ _ hb' hr'
    · rename_i hn
      simp only [reduceCtorEq, false_iff]
      rintro ⟨ver', lay', br', sr', -, hv', hl', hb', hr', -⟩
      exact hn _ _ hv' hl'

end Sys2Proof.Machine
end

