-- ==== Sys2Proof/Laws/State.lean ====
section
/-!
SUPPORT. One lemma for each field of each named update of the state, true by unfolding, so that no
later proof unfolds a record update.
-/

namespace Sys2Proof.Machine

@[simp] theorem acceptScan_params (c : Cursor) (l : Word) (s : State) : (acceptScan c l s).params = s.params := rfl
@[simp] theorem acceptScan_bufLen (c : Cursor) (l : Word) (s : State) : (acceptScan c l s).bufLen = s.bufLen := rfl
@[simp] theorem acceptScan_argStart (c : Cursor) (l : Word) (s : State) : (acceptScan c l s).argStart = s.argStart := rfl
@[simp] theorem acceptScan_argEnd (c : Cursor) (l : Word) (s : State) : (acceptScan c l s).argEnd = s.argEnd := rfl
@[simp] theorem acceptScan_hdr (c : Cursor) (l : Word) (s : State) : (acceptScan c l s).hdr = s.hdr := rfl
@[simp] theorem acceptScan_tagSize (c : Cursor) (l : Word) (s : State) : (acceptScan c l s).tagSize = s.tagSize := rfl
@[simp] theorem acceptScan_done (c : Cursor) (l : Word) (s : State) : (acceptScan c l s).done = false := rfl
@[simp] theorem acceptScan_cmdErr (c : Cursor) (l : Word) (s : State) : (acceptScan c l s).cmdErr = s.cmdErr := rfl
@[simp] theorem acceptScan_fsm (c : Cursor) (l : Word) (s : State) : (acceptScan c l s).fsm = .scan := rfl
@[simp] theorem acceptScan_cur (c : Cursor) (l : Word) (s : State) : (acceptScan c l s).cur = c := rfl
@[simp] theorem acceptScan_lim (c : Cursor) (l : Word) (s : State) : (acceptScan c l s).lim = l := rfl
@[simp] theorem acceptScan_len (c : Cursor) (l : Word) (s : State) : (acceptScan c l s).len = s.bufLen := rfl
@[simp] theorem acceptScan_mem (c : Cursor) (l : Word) (s : State) : (acceptScan c l s).mem = s.mem := rfl
@[simp] theorem acceptScan_bufSize (c : Cursor) (l : Word) (s : State) : (acceptScan c l s).bufSize = s.bufSize := rfl
@[simp] theorem acceptScan_bufEpoch (c : Cursor) (l : Word) (s : State) : (acceptScan c l s).bufEpoch = s.bufEpoch := rfl
@[simp] theorem acceptScan_inputs (c : Cursor) (l : Word) (s : State) : (acceptScan c l s).inputs = s.inputs := rfl
@[simp] theorem acceptScan_rdata (c : Cursor) (l : Word) (s : State) : (acceptScan c l s).rdata = s.rdata := rfl

@[simp] theorem acceptTag_params (s : State) : (acceptTag s).params = s.params := rfl
@[simp] theorem acceptTag_bufLen (s : State) : (acceptTag s).bufLen = s.bufLen := rfl
@[simp] theorem acceptTag_argStart (s : State) : (acceptTag s).argStart = s.argStart := rfl
@[simp] theorem acceptTag_argEnd (s : State) : (acceptTag s).argEnd = s.argEnd := rfl
@[simp] theorem acceptTag_hdr (s : State) : (acceptTag s).hdr = s.hdr := rfl
@[simp] theorem acceptTag_tagSize (s : State) : (acceptTag s).tagSize = s.tagSize := rfl
@[simp] theorem acceptTag_done (s : State) : (acceptTag s).done = false := rfl
@[simp] theorem acceptTag_cmdErr (s : State) : (acceptTag s).cmdErr = s.cmdErr := rfl
@[simp] theorem acceptTag_fsm (s : State) : (acceptTag s).fsm = .tag := rfl
@[simp] theorem acceptTag_cur (s : State) : (acceptTag s).cur = s.cur := rfl
@[simp] theorem acceptTag_lim (s : State) : (acceptTag s).lim = s.lim := rfl
@[simp] theorem acceptTag_len (s : State) : (acceptTag s).len = s.bufLen := rfl
@[simp] theorem acceptTag_mem (s : State) : (acceptTag s).mem = s.mem := rfl
@[simp] theorem acceptTag_bufSize (s : State) : (acceptTag s).bufSize = s.bufSize := rfl
@[simp] theorem acceptTag_bufEpoch (s : State) : (acceptTag s).bufEpoch = s.bufEpoch := rfl
@[simp] theorem acceptTag_inputs (s : State) : (acceptTag s).inputs = s.inputs := rfl
@[simp] theorem acceptTag_rdata (s : State) : (acceptTag s).rdata = s.rdata := rfl

@[simp] theorem reject_params (s : State) : (reject s).params = s.params := rfl
@[simp] theorem reject_bufLen (s : State) : (reject s).bufLen = s.bufLen := rfl
@[simp] theorem reject_argStart (s : State) : (reject s).argStart = s.argStart := rfl
@[simp] theorem reject_argEnd (s : State) : (reject s).argEnd = s.argEnd := rfl
@[simp] theorem reject_hdr (s : State) : (reject s).hdr = s.hdr := rfl
@[simp] theorem reject_tagSize (s : State) : (reject s).tagSize = s.tagSize := rfl
@[simp] theorem reject_done (s : State) : (reject s).done = s.done := rfl
@[simp] theorem reject_cmdErr (s : State) : (reject s).cmdErr = true := rfl
@[simp] theorem reject_fsm (s : State) : (reject s).fsm = s.fsm := rfl
@[simp] theorem reject_cur (s : State) : (reject s).cur = s.cur := rfl
@[simp] theorem reject_lim (s : State) : (reject s).lim = s.lim := rfl
@[simp] theorem reject_len (s : State) : (reject s).len = s.len := rfl
@[simp] theorem reject_mem (s : State) : (reject s).mem = s.mem := rfl
@[simp] theorem reject_bufSize (s : State) : (reject s).bufSize = s.bufSize := rfl
@[simp] theorem reject_bufEpoch (s : State) : (reject s).bufEpoch = s.bufEpoch := rfl
@[simp] theorem reject_inputs (s : State) : (reject s).inputs = s.inputs := rfl
@[simp] theorem reject_rdata (s : State) : (reject s).rdata = s.rdata := rfl

@[simp] theorem complete_params (h : Header) (s : State) : (complete h s).params = s.params := rfl
@[simp] theorem complete_bufLen (h : Header) (s : State) : (complete h s).bufLen = s.bufLen := rfl
@[simp] theorem complete_argStart (h : Header) (s : State) : (complete h s).argStart = s.argStart := rfl
@[simp] theorem complete_argEnd (h : Header) (s : State) : (complete h s).argEnd = s.argEnd := rfl
@[simp] theorem complete_hdr (h : Header) (s : State) : (complete h s).hdr = resultImage h := rfl
@[simp] theorem complete_tagSize (h : Header) (s : State) : (complete h s).tagSize = s.tagSize := rfl
@[simp] theorem complete_done (h : Header) (s : State) : (complete h s).done = true := rfl
@[simp] theorem complete_cmdErr (h : Header) (s : State) : (complete h s).cmdErr = s.cmdErr := rfl
@[simp] theorem complete_fsm (h : Header) (s : State) : (complete h s).fsm = .idle := rfl
@[simp] theorem complete_cur (h : Header) (s : State) : (complete h s).cur = s.cur := rfl
@[simp] theorem complete_lim (h : Header) (s : State) : (complete h s).lim = s.lim := rfl
@[simp] theorem complete_len (h : Header) (s : State) : (complete h s).len = s.len := rfl
@[simp] theorem complete_mem (h : Header) (s : State) : (complete h s).mem = s.mem := rfl
@[simp] theorem complete_bufSize (h : Header) (s : State) : (complete h s).bufSize = s.bufSize := rfl
@[simp] theorem complete_bufEpoch (h : Header) (s : State) : (complete h s).bufEpoch = s.bufEpoch := rfl
@[simp] theorem complete_inputs (h : Header) (s : State) : (complete h s).inputs = s.inputs := rfl
@[simp] theorem complete_rdata (h : Header) (s : State) : (complete h s).rdata = s.rdata := rfl

@[simp] theorem completeTag_params (v : Word) (s : State) : (completeTag v s).params = s.params := rfl
@[simp] theorem completeTag_bufLen (v : Word) (s : State) : (completeTag v s).bufLen = s.bufLen := rfl
@[simp] theorem completeTag_argStart (v : Word) (s : State) : (completeTag v s).argStart = s.argStart := rfl
@[simp] theorem completeTag_argEnd (v : Word) (s : State) : (completeTag v s).argEnd = s.argEnd := rfl
@[simp] theorem completeTag_hdr (v : Word) (s : State) : (completeTag v s).hdr = s.hdr := rfl
@[simp] theorem completeTag_tagSize (v : Word) (s : State) : (completeTag v s).tagSize = v := rfl
@[simp] theorem completeTag_done (v : Word) (s : State) : (completeTag v s).done = true := rfl
@[simp] theorem completeTag_cmdErr (v : Word) (s : State) : (completeTag v s).cmdErr = s.cmdErr := rfl
@[simp] theorem completeTag_fsm (v : Word) (s : State) : (completeTag v s).fsm = .idle := rfl
@[simp] theorem completeTag_cur (v : Word) (s : State) : (completeTag v s).cur = s.cur := rfl
@[simp] theorem completeTag_lim (v : Word) (s : State) : (completeTag v s).lim = s.lim := rfl
@[simp] theorem completeTag_len (v : Word) (s : State) : (completeTag v s).len = s.len := rfl
@[simp] theorem completeTag_mem (v : Word) (s : State) : (completeTag v s).mem = s.mem := rfl
@[simp] theorem completeTag_bufSize (v : Word) (s : State) : (completeTag v s).bufSize = s.bufSize := rfl
@[simp] theorem completeTag_bufEpoch (v : Word) (s : State) : (completeTag v s).bufEpoch = s.bufEpoch := rfl
@[simp] theorem completeTag_inputs (v : Word) (s : State) : (completeTag v s).inputs = s.inputs := rfl
@[simp] theorem completeTag_rdata (v : Word) (s : State) : (completeTag v s).rdata = s.rdata := rfl

@[simp] theorem applyReset_params (s : State) : (applyReset s).params = s.params := rfl
@[simp] theorem applyReset_bufLen (s : State) : (applyReset s).bufLen = 0 := rfl
@[simp] theorem applyReset_argStart (s : State) : (applyReset s).argStart = 0 := rfl
@[simp] theorem applyReset_argEnd (s : State) : (applyReset s).argEnd = 0 := rfl
@[simp] theorem applyReset_hdr (s : State) : (applyReset s).hdr = .zero := rfl
@[simp] theorem applyReset_tagSize (s : State) : (applyReset s).tagSize = 0 := rfl
@[simp] theorem applyReset_done (s : State) : (applyReset s).done = false := rfl
@[simp] theorem applyReset_cmdErr (s : State) : (applyReset s).cmdErr = false := rfl
@[simp] theorem applyReset_fsm (s : State) : (applyReset s).fsm = .idle := rfl
@[simp] theorem applyReset_cur (s : State) : (applyReset s).cur = 0 := rfl
@[simp] theorem applyReset_lim (s : State) : (applyReset s).lim = 0 := rfl
@[simp] theorem applyReset_len (s : State) : (applyReset s).len = 0 := rfl
@[simp] theorem applyReset_mem (s : State) : (applyReset s).mem = s.mem := rfl
@[simp] theorem applyReset_bufSize (s : State) : (applyReset s).bufSize = s.bufSize := rfl
@[simp] theorem applyReset_bufEpoch (s : State) : (applyReset s).bufEpoch = s.bufEpoch := rfl
@[simp] theorem applyReset_inputs (s : State) : (applyReset s).inputs = s.inputs := rfl
@[simp] theorem applyReset_rdata (s : State) : (applyReset s).rdata = s.rdata := rfl

end Sys2Proof.Machine
end

