-- ==== Sys2Proof/Laws/Ops.lean ====
section
/-!
SUPPORT. What each shared operation and each agent's move can do, said once: later proofs cite these
and do not unfold the operations.
-/

namespace Sys2Proof.Machine

/-- The scan step (41 R171) does one of three things. -/
theorem scanStep_cases (h : Header) (s : State) :
    (s.lim.toNat < s.cur.toNat ∧ scanStep h s = complete .invalid s) ∨
    (s.cur.toNat ≤ s.lim.toNat ∧ ∃ r, h = .valid r ∧ scanStep h s = complete (.valid r) s) ∨
    (s.cur.toNat ≤ s.lim.toNat ∧ h = .invalid ∧ scanStep h s = { s with cur := s.cur + 1 }) := by
  unfold scanStep pastLimit
  by_cases hp : s.lim.toNat < s.cur.toNat
  · exact .inl ⟨hp, by simp [hp]⟩
  · have hp' : s.cur.toNat ≤ s.lim.toNat := Nat.not_lt.mp hp
    cases h with
    | valid r => exact .inr (.inl ⟨hp', r, rfl, by simp [hp]⟩)
    | invalid => exact .inr (.inr ⟨hp', rfl, by simp [hp]⟩)

/-- Below the limit, moving the cursor on never wraps (00 R8). -/
theorem cursor_succ {c : Cursor} {l : Word} (h : c.toNat ≤ l.toNat) :
    (c + 1).toNat = c.toNat + 1 := by
  have hl := l.isLt
  have h1 : (1 : Cursor).toNat = 1 := rfl
  rw [BitVec.toNat_add, h1]
  omega

/-- `headerOfWord` where 4 bytes are available, with the offset in 32 bits. -/
theorem headerOfWord_eq {s : State} {o : Nat} (w : Word) (h : o + 4 ≤ s.len.toNat) :
    headerOfWord s o w = decodeHeader s.params.bitrateLut w (BitVec.ofNat 32 o) := by
  simp only [headerOfWord, tooShort, Nat.not_lt.mpr h, decide_false, Bool.false_eq_true, if_false]

/-- `headerOfWord` where fewer than 4 bytes are available. -/
theorem headerOfWord_short {s : State} {o : Nat} (w : Word) (h : s.len.toNat < o + 4) :
    headerOfWord s o w = .invalid := by
  simp only [headerOfWord, tooShort, h, decide_true, if_true]

/-- In SCAN, examining a word is the scan step with the word's header. -/
theorem examine_scan {s : State} (w : Word) (h : s.fsm = .scan) :
    examine w s = scanStep (headerOfWord s s.cur.toNat w) s := by
  simp only [examine, h]

/-- Every header word's meaning is to be examined. -/
theorem exec_header {i : Instr} (s : State) (h : i.isCommand = false) :
    exec i s = .next (examine (encode i) s) := by
  cases i <;> first | rfl | cases h

/-- Acceptance is refused exactly when BUF_LEN exceeds the buffer's size (70 R230). -/
theorem accept_cases (t s : State) :
    (s.bufLen.toNat ≤ s.bufSize.toNat ∧ accept t s = .next t) ∨
    (s.bufSize.toNat < s.bufLen.toNat ∧ accept t s = .refused .bufLenAboveBuffer) := by
  unfold accept
  split
  · rename_i h
    exact .inr ⟨h, rfl⟩
  · rename_i h
    exact .inl ⟨Nat.not_lt.mp h, rfl⟩

/-- An acceptance inside the buffer's size answers its state. -/
theorem accept_of_le {t s : State} (h : s.bufLen.toNat ≤ s.bufSize.toNat) : accept t s = .next t := by
  simp only [accept, Nat.not_lt.mpr h, if_false]

/-- An acceptance that answers a next state answers its own, and BUF_LEN was inside the buffer's size. -/
theorem accept_next {t s u : State} (h : accept t s = .next u) :
    u = t ∧ s.bufLen.toNat ≤ s.bufSize.toNat := by
  rcases accept_cases t s with ⟨hl, he⟩ | ⟨-, he⟩ <;> rw [he] at h <;> cases h
  exact ⟨rfl, hl⟩

/-- Every command word's meaning is a rejection or, in IDLE, an acceptance (41 R160, R161). -/
theorem exec_command {i : Instr} (s : State) (h : i.isCommand = true) :
    ((s.fsm ≠ .idle ∨ ∃ g, i = .tagsize g ∧ s.params.id3Unit = .absent) ∧
      exec i s = .next (reject s)) ∨
    (s.fsm = .idle ∧ (∀ g, i ≠ .tagsize g) ∧ ∃ c l, exec i s = accept (acceptScan c l s) s ∧
      (c = s.argStart.setWidth 33 ∨ c = advanceOrigin s)) ∨
    (s.fsm = .idle ∧ s.params.id3Unit = .present ∧ exec i s = accept (acceptTag s) s) := by
  have hbusy : s.fsm ≠ .idle → exec i s = .next (reject s) := fun hb => by
    cases hf : s.fsm with
    | idle => exact absurd hf hb
    | scan | tag =>
      cases i <;> first
        | (cases h; done)
        | simp only [exec, execParse, execLocate, execAdvance, execTagsize, hf]
  by_cases hf : s.fsm = .idle
  · cases i with
    | parse g =>
      exact .inr (.inl ⟨hf, nofun, _, _, by simp only [exec, execParse, hf]; rfl, .inl rfl⟩)
    | locate g =>
      exact .inr (.inl ⟨hf, nofun, _, _, by simp only [exec, execLocate, hf]; rfl, .inl rfl⟩)
    | advance g =>
      exact .inr (.inl ⟨hf, nofun, _, _, by simp only [exec, execAdvance, hf]; rfl, .inr rfl⟩)
    | tagsize g =>
      cases hu : s.params.id3Unit with
      | present => exact .inr (.inr ⟨hf, rfl, by simp only [exec, execTagsize, hf, hu]⟩)
      | absent => exact .inl ⟨.inr ⟨g, rfl, rfl⟩, by simp only [exec, execTagsize, hf, hu]⟩
    | hdrV1L1 | hdrV1L2 | hdrV1L3 | hdrV2L1 | hdrV2L2 | hdrV2L3 | hdrV25L1 | hdrV25L2 | hdrV25L3
    | hdrSyncRequired | hdrRsvVersion | hdrRsvLayer | hdrBadBitrateIndex | hdrRsvSrateIndex =>
      cases h
  · exact .inl ⟨.inl hf, hbusy hf⟩

/-- The command decoder gives commands only. -/
theorem decodeCmd_isCommand {w : Word} {i : Instr} (h : decodeCmd w = .ok i) :
    i.isCommand = true := by
  unfold decodeCmd at h
  dsimp only at h
  split at h
  · cases h; rfl
  · split at h
    · cases h; rfl
    · split at h
      · cases h; rfl
      · split at h
        · cases h; rfl
        · cases h

/-- The header decoder gives header rows only. -/
theorem decodeHdr_isCommand (w : Word) : (decodeHdr w).isCommand = false := by
  unfold decodeHdr classOf
  dsimp only
  repeat' split
  all_goals rfl

/-- A host write (10 R21, R22) that answers a next state: a rejection, an acceptance with BUF_LEN inside
the buffer's size, or a plain register write. -/
theorem hostWrite_next {offset width : Nat} {v : Word} {s t : State}
    (h : hostWrite offset width v s = .next t) :
    (offset = 0 ∧ width = 32 ∧ t = reject s) ∨
    (offset = 0 ∧ width = 32 ∧ s.fsm = .idle ∧ s.bufLen.toNat ≤ s.bufSize.toNat ∧
      ∃ c l, t = acceptScan c l s ∧ (c = s.argStart.setWidth 33 ∨ c = advanceOrigin s)) ∨
    (offset = 0 ∧ width = 32 ∧ s.fsm = .idle ∧ s.bufLen.toNat ≤ s.bufSize.toNat ∧
      s.params.id3Unit = .present ∧ t = acceptTag s) ∨
    (∃ r, r ≠ .cmd ∧ regAt offset width = some r ∧ t = writeReg r v s) := by
  unfold hostWrite at h
  split at h
  · cases h
  · rename_i hr
    obtain ⟨ho, hw⟩ := regAt_eq_cmd hr
    split at h
    · rename_i i hd
      rcases exec_command s (decodeCmd_isCommand hd) with
        ⟨-, he⟩ | ⟨hf, -, c, l, he, hc⟩ | ⟨hf, hu, he⟩
      · rw [he] at h; cases h; exact .inl ⟨ho, hw, rfl⟩
      · rw [he] at h
        obtain ⟨rfl, hl⟩ := accept_next h
        exact .inr (.inl ⟨ho, hw, hf, hl, c, l, rfl, hc⟩)
      · rw [he] at h
        obtain ⟨rfl, hl⟩ := accept_next h
        exact .inr (.inr (.inl ⟨ho, hw, hf, hl, hu, rfl⟩))
    · cases h; exact .inl ⟨ho, hw, rfl⟩
  · rename_i r hne hr
    cases h
    exact .inr (.inr (.inr ⟨r, hne, hr, rfl⟩))

/-- A plain register write touches BUF_LEN, the arguments and CMDERR only. -/
theorem writeReg_frame (r : Reg) (v : Word) (s : State) :
    (writeReg r v s).params = s.params ∧ (writeReg r v s).hdr = s.hdr ∧
    (writeReg r v s).tagSize = s.tagSize ∧ (writeReg r v s).done = s.done ∧
    (writeReg r v s).fsm = s.fsm ∧ (writeReg r v s).cur = s.cur ∧ (writeReg r v s).lim = s.lim ∧
    (writeReg r v s).len = s.len ∧ (writeReg r v s).mem = s.mem ∧
    (writeReg r v s).bufSize = s.bufSize ∧ (writeReg r v s).bufEpoch = s.bufEpoch ∧
    (writeReg r v s).inputs = s.inputs ∧ (writeReg r v s).rdata = s.rdata := by
  cases r <;> exact ⟨rfl, rfl, rfl, rfl, rfl, rfl, rfl, rfl, rfl, rfl, rfl, rfl, rfl⟩

/-- Only a write to STATUS touches CMDERR. -/
theorem writeReg_cmdErr (r : Reg) (v : Word) (s : State) (h : r ≠ .status) :
    (writeReg r v s).cmdErr = s.cmdErr := by
  cases r <;> first | rfl | exact absurd rfl h

/-- An FSM step that answers a next state: none in IDLE, the tag step, or the scan step with the header
value of the candidate at the cursor (40 R150), `INVALID` when nothing was read. -/
theorem fsmStep_next {s t : State} (h : fsmStep s = .next t) :
    (s.fsm = .idle ∧ t = s) ∨
    (s.fsm = .tag ∧ ∃ v, tagSizeOf s = some v ∧ t = completeTag v s) ∨
    (s.fsm = .scan ∧ ∃ hd, t = scanStep hd s ∧
      ((hd = .invalid ∧ (s.lim.toNat < s.cur.toNat ∨ s.len.toNat < s.cur.toNat + 4)) ∨
        (s.cur.toNat + 4 ≤ s.len.toNat ∧ ∃ w,
          hd = decodeHeader s.params.bitrateLut w (BitVec.ofNat 32 s.cur.toNat)))) := by
  unfold fsmStep at h
  split at h
  · rename_i hf; cases h; exact .inl ⟨hf, rfl⟩
  · rename_i hf
    split at h
    · rename_i v hv; cases h; exact .inr (.inl ⟨hf, v, hv, rfl⟩)
    · cases h
  · rename_i hf
    split at h
    · rename_i hp
      cases h
      refine .inr (.inr ⟨hf, .invalid, rfl, .inl ⟨rfl, ?_⟩⟩)
      simpa [pastLimit, tooShort] using hp
    · rename_i hp
      have hlen : s.cur.toNat + 4 ≤ s.len.toNat := by
        simp only [pastLimit, tooShort, Bool.or_eq_true, decide_eq_true_eq, not_or, not_lt] at hp
        exact hp.2
      split at h
      · rename_i w hw
        rw [exec_header s (decodeHdr_isCommand w)] at h
        cases h
        refine .inr (.inr ⟨hf, _, examine_scan _ hf, .inr ⟨hlen, _, headerOfWord_eq _ hlen⟩⟩)
      · cases h

/-- A step is one event, or a turn of the FSM when no event is left (20 R73). -/
theorem step_nil {s : State} (h : s.inputs = []) : step s = fsmStep s := by
  simp only [step, h]

/-- A step takes the next event off the list and handles it. -/
theorem step_cons {s : State} {e : Input} {rest : List Input} (h : s.inputs = e :: rest) :
    step s = handleInput e { s with inputs := rest } := by
  simp only [step, h]

end Sys2Proof.Machine
end

