-- ==== Sys2Proof/Laws/PerInstr.lean ====
section
/-!
SUPPORT. Statements about every instruction as syntax, one lemma a constructor. The family
`EncodeMatchesRow`: the word of a well-formed instruction matches its row's mask and match in
spec/opcode_table.json (and, for the sync row, does not match it: 30 R89).
-/

namespace Sys2Proof.Laws.EncodeMatchesRow

/-- The encoding of a well-formed instruction matches the row it stands for. -/
def Statement (i : Instr) : Prop := i.wf = true → rowHolds i (encode i) = true

/-- Under the command rows' mask only OP is left of a command word. -/
theorem command_masked (ign : BitVec 29) (op : BitVec 3) :
    (ign ++ op) &&& 0x00000007#32 = op.setWidth 32 := by
  apply BitVec.eq_of_getElem_eq
  intro i hi
  simp only [BitVec.getElem_and, BitVec.getElem_append, BitVec.getElem_setWidth]
  interval_cases i <;> simp [BitVec.getLsbD_eq_getElem]

/-- Under the class rows' mask only the sync, VER and LAY are left of a class word. -/
theorem class_masked (ver lay : BitVec 2) (f : HdrFields) :
    classWord ver lay f &&& 0xFFFE0000#32 = classWord ver lay ⟨0, 0, 0, 0, 0, 0, 0, 0, 0, 0⟩ := by
  unfold classWord headerWord
  apply BitVec.eq_of_getLsbD_eq
  intro i hi
  simp only [BitVec.getLsbD_and, BitVec.getLsbD_append]
  interval_cases i <;> simp

theorem parse (ign : BitVec 29) : Statement (.parse ign) := fun _ => by
  simp [rowHolds, rowMask, rowMatch, encode, command_masked]

theorem locate (ign : BitVec 29) : Statement (.locate ign) := fun _ => by
  simp [rowHolds, rowMask, rowMatch, encode, command_masked]

theorem advance (ign : BitVec 29) : Statement (.advance ign) := fun _ => by
  simp [rowHolds, rowMask, rowMatch, encode, command_masked]

theorem tagsize (ign : BitVec 29) : Statement (.tagsize ign) := fun _ => by
  simp [rowHolds, rowMask, rowMatch, encode, command_masked]

theorem hdrV1L1 (f : HdrFields) : Statement (.hdrV1L1 f) := fun _ => by
  simp only [rowHolds, rowMask, rowMatch, encode, class_masked]
  decide

theorem hdrV1L2 (f : HdrFields) : Statement (.hdrV1L2 f) := fun _ => by
  simp only [rowHolds, rowMask, rowMatch, encode, class_masked]
  decide

theorem hdrV1L3 (f : HdrFields) : Statement (.hdrV1L3 f) := fun _ => by
  simp only [rowHolds, rowMask, rowMatch, encode, class_masked]
  decide

theorem hdrV2L1 (f : HdrFields) : Statement (.hdrV2L1 f) := fun _ => by
  simp only [rowHolds, rowMask, rowMatch, encode, class_masked]
  decide

theorem hdrV2L2 (f : HdrFields) : Statement (.hdrV2L2 f) := fun _ => by
  simp only [rowHolds, rowMask, rowMatch, encode, class_masked]
  decide

theorem hdrV2L3 (f : HdrFields) : Statement (.hdrV2L3 f) := fun _ => by
  simp only [rowHolds, rowMask, rowMatch, encode, class_masked]
  decide

theorem hdrV25L1 (f : HdrFields) : Statement (.hdrV25L1 f) := fun _ => by
  simp only [rowHolds, rowMask, rowMatch, encode, class_masked]
  decide

theorem hdrV25L2 (f : HdrFields) : Statement (.hdrV25L2 f) := fun _ => by
  simp only [rowHolds, rowMask, rowMatch, encode, class_masked]
  decide

theorem hdrV25L3 (f : HdrFields) : Statement (.hdrV25L3 f) := fun _ => by
  simp only [rowHolds, rowMask, rowMatch, encode, class_masked]
  decide

theorem hdrSyncRequired (w : Word) : Statement (.hdrSyncRequired w) := fun h => by
  simp only [rowHolds, rowMask, rowMatch, encode, bne_iff_ne, ne_eq]
  simp only [Instr.wf, bne_iff_ne, ne_eq] at h
  refine fun hm => h ?_
  apply BitVec.eq_of_getElem_eq
  intro i hi
  have hb := congrArg (fun v : Word => v.getLsbD (21 + i)) hm
  simp only [BitVec.getLsbD_and] at hb
  simp only [BitVec.getElem_extractLsb']
  interval_cases i <;> simpa using hb

theorem hdrRsvVersion (rest : BitVec 19) : Statement (.hdrRsvVersion rest) := fun _ => by
  simp only [rowHolds, rowMask, rowMatch, encode, beq_iff_eq]
  apply BitVec.eq_of_getElem_eq
  intro i hi
  simp only [BitVec.getElem_and, BitVec.getElem_append]
  interval_cases i <;> simp

theorem hdrRsvLayer (ver : BitVec 2) (rest : BitVec 17) : Statement (.hdrRsvLayer ver rest) :=
  fun _ => by
  simp only [rowHolds, rowMask, rowMatch, encode, beq_iff_eq]
  apply BitVec.eq_of_getElem_eq
  intro i hi
  simp only [BitVec.getElem_and, BitVec.getElem_append]
  interval_cases i <;> simp

theorem hdrBadBitrateIndex (ver lay : BitVec 2) (prot : BitVec 1) (rest : BitVec 12) :
    Statement (.hdrBadBitrateIndex ver lay prot rest) := fun _ => by
  simp only [rowHolds, rowMask, rowMatch, encode, beq_iff_eq]
  apply BitVec.eq_of_getElem_eq
  intro i hi
  simp only [BitVec.getElem_and, BitVec.getElem_append]
  interval_cases i <;> simp

theorem hdrRsvSrateIndex (ver lay : BitVec 2) (prot : BitVec 1) (bri : BitVec 4)
    (rest : BitVec 10) : Statement (.hdrRsvSrateIndex ver lay prot bri rest) := fun _ => by
  simp only [rowHolds, rowMask, rowMatch, encode, beq_iff_eq]
  apply BitVec.eq_of_getElem_eq
  intro i hi
  simp only [BitVec.getElem_and, BitVec.getElem_append]
  interval_cases i <;> simp

end Sys2Proof.Laws.EncodeMatchesRow
end

