-- ==== Sys2Proof/Laws/Run.lean ====
section
/-!
SUPPORT. Everything one step can do, said once; when the FSM's reads have an answer and what they depend
on; and how runs of several steps compose.
-/

namespace Sys2Proof.Machine

/-- A step that answers a next state is one of seven things: a turn of the FSM, a host write, a read or
a poll that changes only the model's own fields, reset, a new buffer, one byte filled (20 R73). -/
theorem step_next {s t : State} (h : step s = .next t) :
    ((s.inputs = [] ∧ fsmStep s = .next t) ∨
      (∃ rest, s.inputs = .fsm :: rest ∧ fsmStep { s with inputs := rest } = .next t)) ∨
    (∃ offset width v rest, s.inputs = .write offset width v :: rest ∧
      hostWrite offset width v { s with inputs := rest } = .next t) ∨
    (∃ offset width rest v, s.inputs = .read offset width :: rest ∧
      t = { s with inputs := rest, rdata := v }) ∨
    (∃ rest ins v, s.inputs = .wait :: rest ∧ t = { s with inputs := ins, rdata := v }) ∨
    (∃ rest, s.inputs = .reset :: rest ∧ t = applyReset { s with inputs := rest }) ∨
    (∃ size rest, s.inputs = .newBuffer size :: rest ∧
      t = { s with inputs := rest, mem := [], bufSize := size, bufEpoch := s.bufEpoch + 1 }) ∨
    (∃ o b rest, s.inputs = .fill o b :: rest ∧ o.toNat < s.bufSize.toNat ∧
      t = { s with inputs := rest, mem := Memory.write s.mem o.toNat b }) := by
  cases hi : s.inputs with
  | nil => rw [step_nil hi] at h; exact .inl (.inl ⟨rfl, h⟩)
  | cons e rest =>
    rw [step_cons hi] at h
    cases e with
    | write offset width v => exact .inr (.inl ⟨offset, width, v, rest, rfl, h⟩)
    | read offset width =>
      simp only [handleInput, hostRead] at h
      split at h
      · cases h
      · cases h
        exact .inr (.inr (.inl ⟨offset, width, rest, _, rfl, rfl⟩))
    | wait =>
      simp only [handleInput, hostPoll] at h
      split at h <;> cases h <;> exact .inr (.inr (.inr (.inl ⟨rest, _, _, rfl, rfl⟩)))
    | fsm => exact .inl (.inr ⟨rest, rfl, h⟩)
    | reset =>
      cases h
      exact .inr (.inr (.inr (.inr (.inl ⟨rest, rfl, rfl⟩))))
    | newBuffer size =>
      simp only [handleInput, takeBuffer] at h
      split at h
      · cases h
      · cases h
        exact .inr (.inr (.inr (.inr (.inr (.inl ⟨size, rest, rfl, rfl⟩)))))
    | fill o b =>
      simp only [handleInput, fillByte] at h
      split at h
      · cases h
      · split at h
        · rename_i hlt
          cases h
          exact .inr (.inr (.inr (.inr (.inr (.inr ⟨o, b, rest, rfl, hlt, rfl⟩)))))
        · cases h

/-- At its turn (an event of its own, or no event left) the machine's step is the FSM's. -/
theorem step_fsmTurn {s : State} (h : s.fsmTurn) :
    step s = fsmStep { s with inputs := s.inputs.tail } := by
  rcases h with h | ⟨rest, h⟩
  · rw [step_nil h, h]
    have e : ({ s with inputs := ([] : List Input).tail } : State) = s := by
      cases s; cases h; rfl
    rw [e]
  · rw [step_cons h, h]
    rfl

/-- What no FSM step changes. -/
theorem fsmStep_frame {s t : State} (h : fsmStep s = .next t) :
    t.params = s.params ∧ t.bufLen = s.bufLen ∧ t.argStart = s.argStart ∧ t.argEnd = s.argEnd ∧
    t.cmdErr = s.cmdErr ∧ t.lim = s.lim ∧ t.len = s.len ∧ t.mem = s.mem ∧
    t.bufSize = s.bufSize ∧ t.bufEpoch = s.bufEpoch ∧ t.inputs = s.inputs ∧ t.rdata = s.rdata := by
  rcases fsmStep_next h with ⟨-, rfl⟩ | ⟨-, v, -, rfl⟩ | ⟨-, hd, rfl, -⟩
  · exact ⟨rfl, rfl, rfl, rfl, rfl, rfl, rfl, rfl, rfl, rfl, rfl, rfl⟩
  · exact ⟨rfl, rfl, rfl, rfl, rfl, rfl, rfl, rfl, rfl, rfl, rfl, rfl⟩
  · rcases scanStep_cases hd s with ⟨-, h⟩ | ⟨-, r, -, h⟩ | ⟨-, -, h⟩ <;> rw [h] <;>
      exact ⟨rfl, rfl, rfl, rfl, rfl, rfl, rfl, rfl, rfl, rfl, rfl, rfl⟩

/-- Under the host's duty of 70 R230 every candidate has a header value. -/
theorem headerAt_isSome {s : State} (h : s.len.toNat ≤ s.bufSize.toNat) (o : Nat) :
    ∃ x, headerAt s o = some x := by
  unfold headerAt
  split
  · exact ⟨_, rfl⟩
  · rename_i hn
    simp only [tooShort, decide_eq_true_eq, not_lt] at hn
    obtain ⟨w, hw⟩ := read32BE_isSome (s := s) (o := o) (by omega)
    rw [hw]
    exact ⟨_, rfl⟩

/-- Under the same duty the tag step has a value to write. -/
theorem tagSizeOf_isSome {s : State} (h : s.len.toNat ≤ s.bufSize.toNat) :
    ∃ v, tagSizeOf s = some v := by
  unfold tagSizeOf
  split
  · exact ⟨_, rfl⟩
  · rename_i hn
    have hr : ∀ o, o < 10 → ∃ b, memRead s o = some b := fun o ho => memRead_isSome (by omega)
    obtain ⟨b0, h0⟩ := hr 0 (by omega)
    obtain ⟨b1, h1⟩ := hr 1 (by omega)
    obtain ⟨b2, h2⟩ := hr 2 (by omega)
    obtain ⟨b5, h5⟩ := hr 5 (by omega)
    obtain ⟨b6, h6⟩ := hr 6 (by omega)
    obtain ⟨b7, h7⟩ := hr 7 (by omega)
    obtain ⟨b8, h8⟩ := hr 8 (by omega)
    obtain ⟨b9, h9⟩ := hr 9 (by omega)
    rw [h0, h1, h2, h5, h6, h7, h8, h9]
    exact ⟨_, rfl⟩

/-- The FSM's step in TAG ends the TAGSIZE with its value (42 R192), when it has one. -/
theorem fsmStep_tag {s : State} {v : Word} (hf : s.fsm = .tag) (hv : tagSizeOf s = some v) :
    fsmStep s = .next (completeTag v s) := by
  unfold fsmStep
  rw [hf]
  simp only [hv]

/-- A candidate's header depends on the table, the latched length and the bytes below it only. -/
theorem headerAt_congr {s t : State} (hp : t.params = s.params) (hl : t.len = s.len)
    (hm : ∀ o, o < s.len.toNat → memRead t o = memRead s o) (o : Nat) :
    headerAt t o = headerAt s o := by
  have e1 : tooShort t o = tooShort s o := by simp only [tooShort, hl]
  have e2 : ∀ w, headerOfWord t o w = headerOfWord s o w := fun w => by
    simp only [headerOfWord, e1, hp]
  unfold headerAt
  rw [e1]
  cases hn : tooShort s o with
  | true => rfl
  | false =>
    simp only [tooShort, decide_eq_false_iff_not] at hn
    have hr : read32BE t o = read32BE s o := by
      unfold read32BE
      rw [hm o (by omega), hm (o + 1) (by omega), hm (o + 2) (by omega), hm (o + 3) (by omega)]
    simp only [hr, e2]

/-- A run of one step more. -/
theorem run_succ (k : Nat) {s s' : State} (h : step s = .next s') :
    Host.Core.run Sys2Proof.core (k + 1) s = Host.Core.run Sys2Proof.core k s' := by
  simp only [Host.Core.run]
  rw [show Sys2Proof.core.step s = Host.Outcome.next s' from h]

/-- Runs compose. -/
theorem run_add (a b : Nat) {s t : State} (h : Host.Core.run Sys2Proof.core a s = .next t) :
    Host.Core.run Sys2Proof.core (a + b) s = Host.Core.run Sys2Proof.core b t := by
  induction a generalizing s with
  | zero => cases h; rw [Nat.zero_add]
  | succ a ih =>
    rw [show a + 1 + b = (a + b) + 1 by omega]
    cases hs : step s with
    | next u => rw [run_succ a hs] at h; rw [run_succ _ hs]; exact ih h
    | fault r => cases r
    | refused r =>
      simp only [Host.Core.run] at h
      rw [show Sys2Proof.core.step s = Host.Outcome.refused r from hs] at h
      cases h

end Sys2Proof.Machine
end

