-- ==== Sys2Proof/Tests/Slice0.lean ====
section
/-!
SUPPORT. Tests on fixed values, their expected results taken from spec/95_test_vectors.md (the vector's
id stands with each) or worked out by hand from the encodings; the refusals of every well-formedness
check; and for every obligation with hypotheses a concrete case that meets them.
-/

namespace Sys2Proof.Tests

open Sys2Proof.Machine

/-! ### Small states -/

/-- A memory that holds these bytes from an offset on. -/
def bytesFrom : Nat → List Byte → Memory
  | _, [] => []
  | o, b :: bs => (o, b) :: bytesFrom (o + 1) bs

/-- After reset, with a buffer of exactly these bytes, BUF_LEN set to its size, and these events to come. -/
def withBuffer (bs : List Byte) (ins : List Input) : State :=
  { State.reset with
    mem := bytesFrom 0 bs, bufSize := BitVec.ofNat 32 bs.length,
    bufLen := BitVec.ofNat 32 bs.length, inputs := ins }

/-- A scan in progress over exactly these bytes, from `c` to `l`. -/
def scanning (bs : List Byte) (c : Cursor) (l : Word) (ins : List Input) : State :=
  { withBuffer bs ins with fsm := .scan, len := BitVec.ofNat 32 bs.length, cur := c, lim := l }

/-- A TAGSIZE in progress over exactly these bytes. -/
def tagging (bs : List Byte) : State :=
  { withBuffer bs [] with fsm := .tag, len := BitVec.ofNat 32 bs.length }

/-- One word at offset 0, the scan's only candidate. -/
def candidate (w : Word) : State := scanning (beBytes w) 0 0 []

/-- The next state of an outcome. -/
def nextOf : Host.Outcome State Fault Refusal → Option State
  | .next t => some t
  | .fault _ => none
  | .refused _ => none

/-- What a step writes to HDR_FIELDS, HDR_BITRATE, HDR_SRATE and HDR_FRAMESIZE, and DONE. -/
def result (s : State) : Option (Nat × Nat × Nat × Nat × Bool) :=
  (nextOf (step s)).map fun t =>
    (t.hdr.fields.toNat, t.hdr.bitrate.toNat, t.hdr.srate.toNat, t.hdr.frameSize.toNat, t.done)

/-- The instruction one decoded word is, if any. -/
def commandOf (w : Word) : Option Instr := (decodeCmd w).toOption

/-! ### Well-formedness refuses -/

theorem test_wf_class_bitrate_index : (Instr.hdrV1L3 ⟨1, 15, 0, 0, 0, 0, 0, 0, 0, 0⟩).wf = false := by
  decide
theorem test_wf_class_srate_index : (Instr.hdrV25L1 ⟨1, 9, 3, 0, 0, 0, 0, 0, 0, 0⟩).wf = false := by
  decide
theorem test_wf_sync_row_with_sync : (Instr.hdrSyncRequired 0xFFE00000).wf = false := by decide
theorem test_wf_layer_row_version : (Instr.hdrRsvLayer 1 0).wf = false := by decide
theorem test_wf_bitrate_row_version : (Instr.hdrBadBitrateIndex 1 1 0 0).wf = false := by decide
theorem test_wf_bitrate_row_layer : (Instr.hdrBadBitrateIndex 3 0 0 0).wf = false := by decide
theorem test_wf_srate_row_version : (Instr.hdrRsvSrateIndex 1 1 0 9 0).wf = false := by decide
theorem test_wf_srate_row_layer : (Instr.hdrRsvSrateIndex 3 0 0 9 0).wf = false := by decide
theorem test_wf_srate_row_bitrate : (Instr.hdrRsvSrateIndex 3 1 0 15 0).wf = false := by decide

/-! ### Decoding, one word a constructor, written out bit by bit from 30 R80, R89 and R95 -/

theorem test_decode_parse :
    commandOf 0b00000000000000000000000000000001 = some (.parse 0) := by decide
theorem test_decode_locate :
    commandOf 0b11111111111111111111111111111010 = some (.locate 0x1FFFFFFF) := by decide
theorem test_decode_advance :
    commandOf 0b00000000000000000000000000001011 = some (.advance 1) := by decide
theorem test_decode_tagsize :
    commandOf 0b10000000000000000000000000000100 = some (.tagsize 0x10000000) := by decide

/-- HV-3: sync, 11, 11, 1, 1010, 00, then zeros. -/
theorem test_decode_v1_l1 :
    decodeHdr 0b11111111111_11_11_1_1010_00_0_0_00_00_0_0_00 =
      .hdrV1L1 ⟨1, 10, 0, 0, 0, 0, 0, 0, 0, 0⟩ := by decide
/-- HV-13. -/
theorem test_decode_v1_l2 :
    decodeHdr 0b11111111111_11_10_1_1001_00_0_0_00_11_0_0_00 =
      .hdrV1L2 ⟨1, 9, 0, 0, 0, 0, 3, 0, 0, 0⟩ := by decide
/-- Every field below LAY with a value of its own: FD-21, HV-10, FD-12 and HV-14 in one word. -/
theorem test_decode_v1_l3 :
    decodeHdr 0b11111111111_11_01_0_1001_01_1_1_01_10_0_1_11 =
      .hdrV1L3 ⟨0, 9, 1, 1, 1, 1, 2, 0, 1, 3⟩ := by decide
/-- HV-4. -/
theorem test_decode_v2_l1 :
    decodeHdr 0b11111111111_10_11_1_0001_00_0_0_00_00_0_0_00 =
      .hdrV2L1 ⟨1, 1, 0, 0, 0, 0, 0, 0, 0, 0⟩ := by decide
/-- HV-5. -/
theorem test_decode_v2_l2 :
    decodeHdr 0b11111111111_10_10_1_0001_00_0_0_00_00_0_0_00 =
      .hdrV2L2 ⟨1, 1, 0, 0, 0, 0, 0, 0, 0, 0⟩ := by decide
/-- HV-17. -/
theorem test_decode_v2_l3 :
    decodeHdr 0b11111111111_10_01_1_0001_01_0_0_11_00_0_0_00 =
      .hdrV2L3 ⟨1, 1, 1, 0, 0, 3, 0, 0, 0, 0⟩ := by decide
/-- HV-19. -/
theorem test_decode_v25_l1 :
    decodeHdr 0b11111111111_00_11_1_1110_10_1_0_00_00_0_0_00 =
      .hdrV25L1 ⟨1, 14, 2, 1, 0, 0, 0, 0, 0, 0⟩ := by decide
theorem test_decode_v25_l2 :
    decodeHdr 0b11111111111_00_10_1_0001_01_0_0_00_00_1_0_00 =
      .hdrV25L2 ⟨1, 1, 1, 0, 0, 0, 0, 1, 0, 0⟩ := by decide
/-- HV-6. -/
theorem test_decode_v25_l3 :
    decodeHdr 0b11111111111_00_01_1_0001_01_0_0_00_00_0_0_00 =
      .hdrV25L3 ⟨1, 1, 1, 0, 0, 0, 0, 0, 0, 0⟩ := by decide
/-- SY-5: eleven ones, but not at bits 31:21. -/
theorem test_decode_sync_required :
    decodeHdr 0b01111111111100000000000000000000 = .hdrSyncRequired 0x7FF00000 := by decide
/-- HV-21. -/
theorem test_decode_rsv_version :
    decodeHdr 0b11111111111_01_0111001000000000000 = .hdrRsvVersion 0x39000 := by decide
/-- HV-22. -/
theorem test_decode_rsv_layer :
    decodeHdr 0b11111111111_11_00_11001000000000000 = .hdrRsvLayer 3 0x19000 := by decide
/-- HV-23. -/
theorem test_decode_bad_bitrate_index :
    decodeHdr 0b11111111111_11_01_1_1111_000000000000 = .hdrBadBitrateIndex 3 1 1 0 := by decide
/-- HV-24. -/
theorem test_decode_rsv_srate_index :
    decodeHdr 0b11111111111_11_01_1_1001_11_0000000000 = .hdrRsvSrateIndex 3 1 1 9 0 := by decide

/-- 30 R96: OP 0, 5, 6 and 7 are rejected by name, whatever bits 31:3. -/
theorem test_decode_reserved_ops :
    decodeCmd 0 = .error (.reservedOp 0) ∧ decodeCmd 0xD = .error (.reservedOp 5) ∧
    decodeCmd 0xFFFFFFFE = .error (.reservedOp 6) ∧ decodeCmd 7 = .error (.reservedOp 7) :=
  ⟨rfl, rfl, rfl, rfl⟩

/-- 30 R90: a header is 4 bytes, never fewer or more. -/
theorem test_decode_not_four_bytes :
    decodeBytes .buffer [0xFF, 0xFB, 0x90] = .error .notFourBytes ∧
    decodeBytes .cmd [] = .error .notFourBytes := ⟨rfl, rfl⟩

/-- 20 R64: the byte at the lower offset is the more significant (SC-1's bytes). -/
theorem test_decode_big_endian :
    decodeBytes .buffer [0xFF, 0xFB, 0x90, 0x00] = .ok (.hdrV1L3 ⟨1, 9, 0, 0, 0, 0, 0, 0, 0, 0⟩) :=
  rfl

/-! ### Header words, one step each -/

/-- HV-3. -/
theorem test_step_v1_l1 : result (candidate 0xFFFFA000) = some (0x01F20029, 320, 44100, 1044, true) := by
  decide
/-- HV-20: the top row of the default table at the lowest MPEG 1 rate. -/
theorem test_step_v1_l1_top : result (candidate 0xFFFFE800) = some (0x01F20029, 448, 32000, 2016, true) := by
  decide
/-- HV-13. -/
theorem test_step_v1_l2 : result (candidate 0xFFFD9030) = some (0x01F80031, 160, 44100, 522, true) := by
  decide
/-- HV-10. -/
theorem test_step_v1_l3 : result (candidate 0xFFFB9050) = some (0x000020B9, 128, 44100, 417, true) := by
  decide
/-- HV-9: free format ignores the padding bit. -/
theorem test_step_v1_l3_free : result (candidate 0xFFFB0200) = some (0x00000079, 0, 44100, 0, true) := by
  decide
/-- HV-4. -/
theorem test_step_v2_l1 : result (candidate 0xFFF71000) = some (0x01F2002B, 32, 22050, 208, true) := by
  decide
/-- HV-5. -/
theorem test_step_v2_l2 : result (candidate 0xFFF51000) = some (0x01F20033, 8, 22050, 52, true) := by
  decide
/-- HV-18. -/
theorem test_step_v2_l3 : result (candidate 0xFFF316C0) = some (0x000001FB, 8, 24000, 49, true) := by
  decide
/-- HV-19: the largest frame of the default table. -/
theorem test_step_v25_l1 : result (candidate 0xFFE7EA00) = some (0x01F2006D, 256, 8000, 4609, true) := by
  decide
/-- By hand from BR-5's row, SR-3 and 10 R29: 144 * 8000 / 12000 = 96. -/
theorem test_step_v25_l2 : result (candidate 0xFFE51408) = some (0x01F20235, 8, 12000, 96, true) := by
  decide
/-- HV-6. -/
theorem test_step_v25_l3 : result (candidate 0xFFE31400) = some (0x0000003D, 8, 12000, 96, true) := by
  decide

/-- What a step does to the cursor, and whether the scan goes on. -/
def moved (s : State) : Option (Nat × Fsm) := (nextOf (step s)).map fun t => (t.cur.toNat, t.fsm)

/-- SC-2: the word 0x00FFFB90 fails sync. -/
theorem test_step_sync_required :
    moved (scanning [0x00, 0xFF, 0xFB, 0x90, 0x00] 0 0 []) = some (1, .scan) := by decide
/-- HV-21. -/
theorem test_step_rsv_version : moved (candidate 0xFFEB9000) = some (1, .scan) := by decide
/-- HV-22. -/
theorem test_step_rsv_layer : moved (candidate 0xFFF99000) = some (1, .scan) := by decide
/-- SC-5's first candidate. -/
theorem test_step_bad_bitrate_index : moved (candidate 0xFFFFFB90) = some (1, .scan) := by decide
/-- HV-24. -/
theorem test_step_rsv_srate_index : moved (candidate 0xFFFB9C00) = some (1, .scan) := by decide
/-- SC-6: fewer than 4 bytes, so no read and the next offset. -/
theorem test_step_short_buffer : moved (scanning [0xFF, 0xFB, 0x90] 0 2 []) = some (1, .scan) := by decide
/-- SC-9: past the limit. -/
theorem test_step_past_limit :
    result (scanning [0xFF, 0xFB, 0x90, 0x00] 3 1 []) = some (0, 0, 0, 0, true) := by decide

/-! ### Commands, one step each -/

/-- What an accepted command leaves: FSM, cursor, limit, latched length, CMDERR. -/
def accepted (s : State) : Option (Fsm × Nat × Nat × Nat × Bool) :=
  (nextOf (step s)).map fun t => (t.fsm, t.cur.toNat, t.lim.toNat, t.len.toNat, t.cmdErr)

/-- A state with arguments set, a result header at 6 of size 417, and one write to CMD to come. -/
def commanded (v : Word) (valid : Bool) (size : BitVec 16) : State :=
  { withBuffer [0xFF, 0xFB, 0x90, 0x00] [.write 0x00 32 v] with
    argStart := 1, argEnd := 9,
    hdr := ⟨6, 0xFFFB9000, if valid then 0x39 else 0, 128, 44100, size⟩ }

theorem test_step_parse : accepted (commanded 1 true 417) = some (.scan, 1, 1, 4, false) := by decide
/-- CM-3. -/
theorem test_step_locate :
    accepted (commanded 0xFFFFFFFA true 417) = some (.scan, 1, 9, 4, false) := by decide
/-- SC-14: 6 + 417 = 423. -/
theorem test_step_advance : accepted (commanded 3 true 417) = some (.scan, 423, 9, 4, false) := by decide
/-- SC-13 and R166: a free-format header gives its offset + 1, no header gives ARG_END + 1. -/
theorem test_step_advance_origins :
    accepted (commanded 3 true 0) = some (.scan, 7, 9, 4, false) ∧
    accepted (commanded 3 false 0) = some (.scan, 10, 9, 4, false) := by decide
theorem test_step_tagsize : accepted (commanded 4 true 417) = some (.tag, 0, 0, 4, false) := by decide
/-- CM-5. -/
theorem test_step_tagsize_absent :
    accepted { commanded 4 true 417 with params := ⟨defaultBitrateLut, .absent⟩ } =
      some (.idle, 0, 0, 0, true) := by decide
/-- CM-1 and CM-2. -/
theorem test_step_reserved_op :
    accepted (commanded 7 true 417) = some (.idle, 0, 0, 0, true) ∧
    accepted (commanded 0 true 417) = some (.idle, 0, 0, 0, true) := by decide
/-- CM-4. -/
theorem test_step_busy :
    accepted (scanning [0xFF, 0xFB, 0x90, 0x00] 2 3 [.write 0x00 32 1]) =
      some (.scan, 2, 3, 4, true) := by decide

/-- TAG_SIZE after the tag step. -/
def tagged (s : State) : Option Nat := (nextOf (step s)).map fun t => t.tagSize.toNat

/-- TG-1 to TG-4. -/
theorem test_tag_sizes :
    tagged (tagging [0x49, 0x44, 0x33, 4, 0, 0x00, 0, 0, 2, 1]) = some 267 ∧
    tagged (tagging [0x49, 0x44, 0x33, 4, 0, 0x10, 0, 0, 2, 1]) = some 277 ∧
    tagged (tagging [0x49, 0x44, 0x33, 4, 0, 0xEF, 0x80, 0x80, 0x82, 0x81]) = some 267 ∧
    tagged (tagging [0x49, 0x44, 0x33, 4, 0, 0x10, 0x7F, 0x7F, 0x7F, 0x7F]) = some 268435475 := by
  decide
/-- TG-5 and TG-6. -/
theorem test_no_tag :
    tagged (tagging [0x49, 0x44, 0x34, 4, 0, 0, 0, 0, 2, 1]) = some 0 ∧
    tagged (tagging [0x49, 0x44, 0x33, 4, 0, 0, 0, 0, 2]) = some 0 := by decide

/-! ### Tables and the divider -/

/-- FS-1 to FS-5 and FS-11. -/
theorem test_frame_size :
    frameSize 128 44100 0 = 417 ∧ frameSize 128 44100 1 = 418 ∧ frameSize 0 44100 1 = 0 ∧
    frameSize 8 0 0 = 0 ∧ frameSize 511 8000 1 = 9199 := by decide
/-- BR-1 to BR-13, but for those the steps above show. -/
theorem test_bitrates :
    bitrateOf defaultBitrateLut .v2_5 .l1 1 = some 32 ∧
    bitrateOf defaultBitrateLut .v1 .l3 14 = some 320 ∧
    bitrateOf defaultBitrateLut .v2 .l1 14 = some 256 ∧
    bitrateOf defaultBitrateLut .v2_5 .l3 14 = some 160 ∧
    bitrateOf defaultBitrateLut .v1 .l2 15 = none := by decide
/-- SR-1 to SR-4. -/
theorem test_sample_rates :
    srateOf .v1 0 = some 44100 ∧ srateOf .v1 1 = some 48000 ∧ srateOf .v1 2 = some 32000 ∧
    srateOf .v2 0 = some 22050 ∧ srateOf .v2 1 = some 24000 ∧ srateOf .v2 2 = some 16000 ∧
    srateOf .v2_5 0 = some 11025 ∧ srateOf .v2_5 1 = some 12000 ∧ srateOf .v2_5 2 = some 8000 ∧
    srateOf .v1 3 = none := by decide

/-! ### Registers -/

/-- CM-6 and CM-7. -/
theorem test_clear_cmdErr :
    (nextOf (step { State.reset with cmdErr := true, inputs := [.write 0x04 32 8] })).map State.cmdErr =
      some false ∧
    (nextOf (step { State.reset with cmdErr := true, inputs := [.write 0x04 32 7] })).map State.cmdErr =
      some true := by decide
/-- CM-8. -/
theorem test_read_only :
    (nextOf (step { State.reset with inputs := [.write 0x14 32 5] })).map (fun t => t.hdr.offset) =
      some 0 := by decide
/-- The STATUS values of program P3: 0xE after its line 6. -/
theorem test_status_read :
    (nextOf (step { commanded 1 true 0 with
      done := true, cmdErr := true, inputs := [.read 0x04 32] })).map State.rdata = some 0xE := by decide
/-- 10 R21: a misaligned, a narrow and a far access. -/
theorem test_bad_access :
    step { State.reset with inputs := [.read 0x02 32] } = .refused .badRegisterAccess ∧
    step { State.reset with inputs := [.read 0x04 8] } = .refused .badRegisterAccess ∧
    step { State.reset with inputs := [.write 0x40 32 0] } = .refused .badRegisterAccess :=
  ⟨rfl, rfl, rfl⟩
/-- 20 R72, 70 R225: a byte below S.len changed under a running command. -/
theorem test_fill_while_busy :
    step (scanning [0xFF, 0xFB, 0x90, 0x00] 0 0 [.fill 3 0]) = .refused .bufferChangedWhileBusy := rfl
/-- 70 R230, 93 I-12: a command with BUF_LEN one above the buffer's size, and with it equal. -/
theorem test_bufLen_above_buffer :
    step { commanded 1 true 417 with bufLen := 5 } = .refused .bufLenAboveBuffer ∧
    (nextOf (step (commanded 1 true 417))).isSome = true := ⟨rfl, by decide⟩
/-- The same BUF_LEN where the write is rejected: CMDERR, as 41 R161 says. -/
theorem test_bufLen_above_buffer_rejected :
    accepted { commanded 7 true 417 with bufLen := 5 } = some (.idle, 0, 0, 0, true) := by decide
/-- RS-1. -/
theorem test_reset_event :
    accepted (scanning [0xFF, 0xFB, 0x90, 0x00] 2 3 [.reset]) = some (.idle, 0, 0, 0, false) := by decide
/-- Line 1 of program P1 as a bus access. -/
theorem test_setbuf :
    inputsOfProgram (expandPseudo (.setbuf 144)) = [.write 0x08 32 0x90] := by decide

/-! ### Words placed for the next step, right after reset -/

theorem test_placed_command :
    accepted (State.reset.withFetchWord 32 0x00000002) = some (.scan, 0, 0, 0, false) := by decide
theorem test_placed_header :
    result (State.reset.withFetchWord 32 0xFFFB9000) = some (0x39, 128, 44100, 417, true) := by decide
theorem test_table_words :
    decodeTableWord 32 0x00000001 = some (.parse 0) ∧
    decodeTableWord 32 0xFFFF0000 = some (.hdrV1L1 ⟨1, 0, 0, 0, 0, 0, 0, 0, 0, 0⟩) ∧
    decodeTableWord 32 0x00000005 = none := by decide

/-! ### Witnesses: the hypotheses of every obligation that has some, met together -/

/-- A header instruction for each way its row is chosen. -/
theorem witness_HeaderInstructionsRoundTrip :
    (Instr.hdrV2L3 ⟨1, 14, 2, 1, 1, 3, 3, 1, 1, 3⟩).isCommand = false ∧
    (Instr.hdrV2L3 ⟨1, 14, 2, 1, 1, 3, 3, 1, 1, 3⟩).wf = true ∧
    (Instr.hdrSyncRequired 0xFFDFFFFF).wf = true ∧ (Instr.hdrRsvVersion 0).wf = true ∧
    (Instr.hdrRsvLayer 3 1).wf = true ∧ (Instr.hdrBadBitrateIndex 0 1 1 7).wf = true ∧
    (Instr.hdrRsvSrateIndex 2 3 0 14 5).wf = true := by decide

theorem witness_CommandWordsRoundTrip :
    (Instr.locate 5).isCommand = true ∧ decodeCmd 0x2A = .ok (.locate 5) := ⟨rfl, rfl⟩

theorem witness_OnlyReservedOpsAreNoCommand :
    (8 : Word).toNat % 8 = 0 ∧ (0xD : Word).toNat % 8 = 5 ∧ (6 : Word).toNat % 8 = 6 ∧
    (0xFFFFFFFF : Word).toNat % 8 = 7 := by decide

/-- A word of each reject row. -/
theorem witness_DecodedRowHoldsAndRejectRowsWin :
    (0xFFEB9000#32 &&& 0xFFF80000#32 = 0xFFE80000#32) ∧
    (0xFFF99000#32 &&& 0xFFE60000#32 = 0xFFE00000#32) ∧
    (0xFFFBF000#32 &&& 0xFFE0F000#32 = 0xFFE0F000#32) ∧
    (0xFFFB9C00#32 &&& 0xFFE00C00#32 = 0xFFE00C00#32) := by decide

/-- The header of a word at offset 0 under the default table. -/
def headerOf (w : Word) : Option HeaderRecord :=
  match decodeHeader defaultBitrateLut w 0 with
  | .valid h => some h
  | .invalid => none

/-- A VALID header is one that a word decodes to: the hypothesis `decodeHeader t w o = .valid h`. -/
theorem headerOf_valid {w : Word} {h : HeaderRecord} (e : headerOf w = some h) :
    decodeHeader defaultBitrateLut w 0 = .valid h := by
  unfold headerOf at e
  split at e
  · rename_i h' hd
    cases e
    exact hd
  · cases e

/-- For the statements about VALID headers: a word of each version and each layer, with the bitrate
indexes 0, 1, 9, 10 and 14, every sample rate index, both Layer 3 and other mode extensions. -/
theorem witness_ValidHeaders :
    (headerOf 0xFFFFA000).map (fun h => (h.version, h.layer)) = some (.v1, .l1) ∧
    (headerOf 0xFFFD9030).map (fun h => (h.version, h.layer)) = some (.v1, .l2) ∧
    (headerOf 0xFFFB9050).map (fun h => (h.version, h.layer)) = some (.v1, .l3) ∧
    (headerOf 0xFFF71000).map (fun h => (h.version, h.layer)) = some (.v2, .l1) ∧
    (headerOf 0xFFF51000).map (fun h => (h.version, h.layer)) = some (.v2, .l2) ∧
    (headerOf 0xFFF31400).map (fun h => (h.version, h.layer)) = some (.v2, .l3) ∧
    (headerOf 0xFFE7EA00).map (fun h => (h.version, h.layer)) = some (.v2_5, .l1) ∧
    (headerOf 0xFFE50800).map (fun h => (h.version, h.layer)) = some (.v2_5, .l2) ∧
    (headerOf 0xFFE31400).map (fun h => (h.version, h.layer)) = some (.v2_5, .l3) := by decide

/-- With `headerOf_valid`: ValidHeaderFieldsFollowTheWord, BitrateComesFromTheSelectedColumn,
SampleRateIsTheTableEntryAndNotZero and FrameSizeIsExactAndBounded have a VALID header. -/
theorem witness_ValidHeader : ∃ h, decodeHeader defaultBitrateLut 0xFFFB9000 0 = .valid h := by
  cases e : headerOf 0xFFFB9000 with
  | some h => exact ⟨h, headerOf_valid e⟩
  | none => exact absurd e (by decide)

/-- BitrateComesFromTheSelectedColumn: the indexes 1 and 14 at the ends of its range, and 0. -/
theorem witness_BitrateIndexes :
    ((0xFFFF1000#32).extractLsb' 12 4).toNat = (1 : Fin 15).val ∧
    ((0xFFE7EA00#32).extractLsb' 12 4).toNat = (14 : Fin 15).val ∧
    (0xFFFB0000#32).extractLsb' 12 4 = 0#4 ∧
    (headerOf 0xFFFF1000).map (fun h => h.bitrate) = some 32 ∧
    (headerOf 0xFFFB0000).map (fun h => h.bitrate) = some 0 := by decide

/-- FrameSizeAtLeastFourUnlessFreeFormat and BitrateZeroExactlyForFreeFormat: the default table is
legal, and both a free-format and another VALID header exist. -/
theorem witness_LegalTable :
    legalBitrateLut defaultBitrateLut = true ∧
    (headerOf 0xFFFB9000).map (fun h => h.bitrate) = some 128 ∧
    (headerOf 0xFFFB0000).map (fun h => (h.bitrate, h.frameSize)) = some (0, 0) := by decide

/-- BUF_LEN equal to the buffer's size, at 0 and at 4. -/
theorem witness_IdleCommandsAreAccepted :
    State.reset.fsm = .idle ∧ State.reset.params.id3Unit = .present ∧
    State.reset.bufLen.toNat ≤ State.reset.bufSize.toNat ∧
    (commanded 1 true 0).bufLen.toNat ≤ (commanded 1 true 0).bufSize.toNat := by decide

theorem witness_CmdWriteWhileIdleIsAccepted :
    (commanded 1 true 417).fsm = .idle ∧
    (commanded 1 true 417).bufLen.toNat ≤ (commanded 1 true 417).bufSize.toNat ∧
    (commanded 1 true 417).inputs = .write 0x00 32 1 :: [] ∧
    (1 : Word).extractLsb' 0 3 = 1#3 ∧ (0xFFFFFFFA : Word).extractLsb' 0 3 = 2#3 ∧
    (3 : Word).extractLsb' 0 3 = 3#3 ∧ (4 : Word).extractLsb' 0 3 = 4#3 ∧
    (commanded 4 true 417).params.id3Unit = .present := by decide

theorem witness_RejectedCmdWriteOnlySetsCmdErr :
    (scanning [] 0 0 [.write 0x00 32 1]).inputs = .write 0x00 32 1 :: [] ∧
    (scanning [] 0 0 [.write 0x00 32 1]).fsm ≠ .idle ∧ (8 : Word).toNat % 8 = 0 ∧
    (5 : Word).toNat % 8 = 5 ∧ (6 : Word).toNat % 8 = 6 ∧ (7 : Word).toNat % 8 = 7 ∧
    (4 : Word).toNat % 8 = 4 ∧
    ({ State.reset with params := ⟨defaultBitrateLut, .absent⟩ } : State).params.id3Unit = .absent := by
  decide

theorem witness_AdvanceOriginNeverWraps :
    State.reset.hdr.fields.getLsbD 0 = false ∧
    (commanded 3 true 0).hdr.fields.getLsbD 0 = true ∧ (commanded 3 true 0).hdr.frameSize = 0 ∧
    (commanded 3 true 417).hdr.frameSize ≠ 0 := by decide

/-- The cursor at its limit, the candidate the last four bytes. -/
theorem witness_ClassWordsCompleteWithTheirHeader :
    (HdrFields.wf ⟨1, 14, 2, 1, 0, 0, 0, 0, 0, 0⟩) = true ∧ (candidate 0xFFE7EA00).fsm = .scan ∧
    (candidate 0xFFE7EA00).cur.toNat ≤ (candidate 0xFFE7EA00).lim.toNat ∧
    (candidate 0xFFE7EA00).cur.toNat + 4 ≤ (candidate 0xFFE7EA00).len.toNat := by decide

theorem witness_RejectedWordsMoveTheCursorByOne :
    (candidate 0xFFDFFFFF).fsm = .scan ∧
    (candidate 0xFFDFFFFF).cur.toNat ≤ (candidate 0xFFDFFFFF).lim.toNat ∧
    (0xFFDFFFFF : Word).extractLsb' 21 11 ≠ 0x7FF#11 := by decide

/-- One past the limit; 3 of 4 bytes left; no scan. -/
theorem witness_HeaderWordsOutsideTheRange :
    (Instr.hdrRsvVersion 0).isCommand = false ∧
    (scanning [1, 2, 3, 4] 1 0 []).fsm = .scan ∧
    (scanning [1, 2, 3, 4] 1 0 []).lim.toNat < (scanning [1, 2, 3, 4] 1 0 []).cur.toNat ∧
    (scanning [1, 2, 3] 0 0 []).cur.toNat ≤ (scanning [1, 2, 3] 0 0 []).lim.toNat ∧
    (scanning [1, 2, 3] 0 0 []).len.toNat < (scanning [1, 2, 3] 0 0 []).cur.toNat + 4 ∧
    State.reset.fsm ≠ .scan := by decide

/-- Each way to answer, and the refusal: a header word, a busy command, BUF_LEN inside the buffer, TAGSIZE
without the unit; then an idle command with BUF_LEN one above the buffer. -/
theorem witness_InstructionsAnswerUnlessBufLenExceedsTheBuffer :
    (Instr.hdrRsvVersion 0).isCommand = false ∧ (candidate 0).fsm ≠ .idle ∧
    (commanded 1 true 0).bufLen.toNat ≤ (commanded 1 true 0).bufSize.toNat ∧
    ({ State.reset with params := ⟨defaultBitrateLut, .absent⟩ } : State).params.id3Unit = .absent ∧
    (Instr.parse 0).isCommand = true ∧ ({ State.reset with bufLen := 1 } : State).fsm = .idle ∧
    ({ State.reset with bufLen := 1 } : State).bufSize.toNat <
      ({ State.reset with bufLen := 1 } : State).bufLen.toNat ∧
    ¬∃ g, Instr.parse 0 = .tagsize g ∧
      ({ State.reset with bufLen := 1 } : State).params.id3Unit = .absent :=
  ⟨rfl, by decide, by decide, rfl, rfl, rfl, by decide, fun ⟨_, h, _⟩ => by cases h⟩

/-- A command while idle and while busy, a header that completes and one that does not. -/
theorem witness_InstructionFrame :
    (nextOf (exec (.parse 0) State.reset)).isSome = true ∧
    (nextOf (exec (.parse 0) (candidate 0))).map State.cmdErr = some true ∧
    (nextOf (exec (decodeHdr 0xFFFB9000) (candidate 0xFFFB9000))).map State.fsm = some .idle ∧
    (nextOf (exec (decodeHdr 0) (candidate 0))).map State.fsm = some .scan := by decide

theorem witness_StepRunsTheWrittenCommand :
    (commanded 3 true 417).inputs = .write 0x00 32 3 :: [] ∧ decodeCmd 3 = .ok (.advance 0) :=
  ⟨rfl, rfl⟩

theorem witness_StepRunsTheFetchedHeaderWord :
    (candidate 0xFFFB9000).fsm = .scan ∧
    (candidate 0xFFFB9000).cur.toNat ≤ (candidate 0xFFFB9000).lim.toNat ∧
    (candidate 0xFFFB9000).cur.toNat + 4 ≤ (candidate 0xFFFB9000).len.toNat ∧
    memRead (candidate 0xFFFB9000) 0 = some 0xFF ∧ memRead (candidate 0xFFFB9000) 1 = some 0xFB ∧
    memRead (candidate 0xFFFB9000) 2 = some 0x90 ∧ memRead (candidate 0xFFFB9000) 3 = some 0x00 ∧
    (candidate 0xFFFB9000).inputs = [] := by decide

theorem witness_PlacedWordIsRunByTheNextStep :
    portOfTableWord (tableWord 32 2) = .cmd ∧ decodeTableWord 32 2 = some (.locate 0) ∧
    portOfTableWord (tableWord 32 0xFFE80000) = .buffer ∧
    decodeTableWord 32 0xFFE80000 = some (.hdrRsvVersion 0) := by decide

/-- A turn left over and one given by an event. -/
theorem witness_fsmTurn :
    (candidate 0).fsmTurn ∧ (scanning [1, 2, 3, 4] 1 0 [.fsm, .wait]).fsmTurn :=
  ⟨.inl rfl, .inr ⟨_, rfl⟩⟩

/-- With `witness_fsmTurn`: one past the limit; at the limit with an invalid and with a valid candidate;
one byte too few. -/
theorem witness_ScanStepExaminesTheCandidate :
    (scanning [1, 2, 3, 4] 1 0 [.fsm, .wait]).fsm = .scan ∧
    (scanning [1, 2, 3, 4] 1 0 [.fsm, .wait]).lim.toNat <
      (scanning [1, 2, 3, 4] 1 0 [.fsm, .wait]).cur.toNat ∧
    (candidate 0).fsm = .scan ∧ (candidate 0).cur.toNat ≤ (candidate 0).lim.toNat ∧
    headerAt (candidate 0) (candidate 0).cur.toNat = some .invalid ∧
    headerAt (candidate 0xFFF314C0) (candidate 0xFFF314C0).cur.toNat =
      some (.valid ⟨0, 0xFFF314C0, .v2, .l3, 1, 8, 24000, 0, .mono, ⟨0, 0, 0, 0⟩, 0, 0, .none, 48⟩) ∧
    (scanning [1, 2, 3] 0 0 []).len.toNat < (scanning [1, 2, 3] 0 0 []).cur.toNat + 4 := by decide

/-- With `witness_fsmTurn`: 9 bytes and 10. -/
theorem witness_TagStepWritesOnlyTagSize :
    (tagging [1, 2, 3, 4, 5, 6, 7, 8, 9]).fsm = .tag ∧
    (tagging [1, 2, 3, 4, 5, 6, 7, 8, 9]).inputs = [] ∧
    (tagging [1, 2, 3, 4, 5, 6, 7, 8, 9]).len.toNat < 10 ∧
    10 ≤ (tagging [1, 2, 3, 4, 5, 6, 7, 8, 9, 10]).len.toNat ∧
    (∀ k : Fin 10, memRead (tagging [1, 2, 3, 4, 5, 6, 7, 8, 9, 10]) k.val =
      some (BitVec.ofNat 8 (k.val + 1))) := by decide

theorem witness_IdleFsmTakesNoStep :
    State.reset.fsm = .idle ∧ State.reset.inputs = [] ∧
    ({ State.reset with inputs := [.fsm] } : State).inputs = .fsm :: [] := ⟨rfl, rfl, rfl⟩

/-- For ReadsReturnTheRegisterAndChangeNothing, WritesToRegistersTouchOnlyTheirOwn,
ReservedOffsetsReadZeroAndIgnoreWrites and PollingEndsExactlyWhenNotBusy: the first and the last
offset of a register, the reserved ones, both values of bit 3, a poll while busy and while idle. -/
theorem witness_RegisterEvents :
    ({ State.reset with inputs := [.read 0x00 32] } : State).inputs = .read 0x00 32 :: [] ∧
    ({ State.reset with inputs := [.read 0x2C 32] } : State).inputs = .read 0x2C 32 :: [] ∧
    ({ State.reset with inputs := [.write 0x04 32 8] } : State).inputs = .write 0x04 32 8 :: [] ∧
    (8 : Word).getLsbD 3 = true ∧ (7 : Word).getLsbD 3 = false ∧
    (0x2C ∈ [0x14, 0x18, 0x1C, 0x20, 0x24, 0x28, 0x2C]) ∧ (0x3C ∈ [0x30, 0x34, 0x38, 0x3C]) ∧
    (scanning [] 0 0 [.wait]).inputs = .wait :: [] ∧ (scanning [] 0 0 [.wait]).fsm ≠ .idle ∧
    ({ State.reset with inputs := [.wait] } : State).inputs = .wait :: [] ∧
    State.reset.fsm = .idle := by decide

/-- The edges of a legal access: 0x3C, and just past it; a write to CMD that would be accepted with
BUF_LEN one above the buffer, and one that would not. -/
theorem witness_OnlyIllegalAccessesAreRefused :
    ({ State.reset with inputs := [.read 0x3C 32] } : State).inputs = .read 0x3C 32 :: [] ∧
    (0x3C % 4 = 0 ∧ 0x3C ≤ 0x3C) ∧ (0x3D % 4 ≠ 0) ∧ 0x3C < 0x40 ∧ 16 ≠ 32 ∧
    (commanded 1 true 0).inputs = .write 0x00 32 1 :: [] ∧
    acceptsWrite 1 { commanded 1 true 0 with bufLen := 5 } = true ∧
    ({ commanded 1 true 0 with bufLen := 5 } : State).bufSize.toNat <
      ({ commanded 1 true 0 with bufLen := 5 } : State).bufLen.toNat ∧
    acceptsWrite 7 (commanded 7 true 0) = false ∧
    (commanded 1 true 0).bufLen.toNat ≤ (commanded 1 true 0).bufSize.toNat := by decide

theorem witness_ResetEventClearsEveryRegister :
    (scanning [] 2 3 [.reset]).inputs = .reset :: [] := rfl

/-- A state that meets the invariant and steps: the one after reset. -/
theorem witness_StepKeepsTheInvariant :
    State.reset.Inv ∧ step State.reset = .next State.reset :=
  ⟨{ memWf := rfl
     memInside := fun c hc => by cases hc
     lutLegal := by decide
     header := .inl rfl
     busyNotDone := fun h => by cases h
     noTagWithoutUnit := fun h => by cases h
     covered := fun h => by cases h
     tagBound := by decide
     cursorBound := by decide }, rfl⟩

/-- A step that completes with a header, and a reset that clears one. -/
theorem witness_ResultHeaderChangesOnlyAtCompletionOrReset :
    (nextOf (step (candidate 0xFFFB9000))).map (fun t => t.hdr != (candidate 0xFFFB9000).hdr) =
      some true ∧
    (nextOf (step { commanded 1 true 0 with inputs := [.reset] })).map
      (fun t => t.hdr != (commanded 1 true 0).hdr) = some true := by decide

/-- CMDERR cleared by reset and by a write, and set by a rejected command. -/
theorem witness_CmdErrIsSticky :
    (nextOf (step { State.reset with cmdErr := true, inputs := [.reset] })).map State.cmdErr =
      some false ∧
    (nextOf (step { State.reset with cmdErr := true, inputs := [.write 0x04 32 8] })).map State.cmdErr =
      some false ∧
    (nextOf (step (commanded 7 true 0))).map State.cmdErr = some true := by decide

theorem witness_CursorOnlyMovesUpByOne :
    (candidate 0).fsm = .scan ∧ (nextOf (step (candidate 0))).map State.fsm = some .scan := by decide

/-- DONE rising at a completion, falling at an acceptance and at reset. -/
theorem witness_DoneRisesAtCompletionAndFallsAtAcceptance :
    (candidate 0xFFFB9000).doneLevel = false ∧
    (nextOf (step (candidate 0xFFFB9000))).map State.doneLevel = some true ∧
    (nextOf (step { commanded 1 true 0 with done := true })).map State.doneLevel = some false ∧
    (nextOf (step { State.reset with done := true, inputs := [.reset] })).map State.doneLevel =
      some false := by decide

theorem witness_DutifulStepsAlwaysAnswer :
    (candidate 0xFFFB9000).busy = true ∧ bufferCovers (candidate 0xFFFB9000) = true ∧
    keepsDuties (.write 0x3C 32 0) (candidate 0) = true ∧
    keepsDuties (.write 0x00 32 1) (commanded 1 true 0) = true ∧
    keepsDuties (.write 0x00 32 1) { commanded 1 true 0 with bufLen := 5 } = false ∧
    keepsDuties (.read 0x00 32) (candidate 0) = true ∧ keepsDuties (.newBuffer 5) State.reset = true ∧
    keepsDuties (.fill 3 0) (withBuffer [1, 2, 3, 4] []) = true := by decide

theorem witness_OnlyTheLoaderChangesTheBuffer :
    (nextOf (step (candidate 0))).isSome = true ∧
    (∀ size rest, (candidate 0).inputs ≠ .newBuffer size :: rest) ∧
    (∀ o b rest, (candidate 0).inputs ≠ .fill o b :: rest) := by
  refine ⟨by decide, ?_, ?_⟩
  · intro size rest h
    cases h
  · intro o b rest h
    cases h

/-- A write, a read and a poll while a scan runs, each answering a next state. -/
theorem witness_HostAccessesLeaveARunningCommandAlone :
    (scanning [] 0 0 [.write 0x0C 32 7]).fsm ≠ .idle ∧
    (nextOf (step (scanning [] 0 0 [.write 0x0C 32 7]))).isSome = true ∧
    (nextOf (step (scanning [] 0 0 [.read 0x04 32]))).isSome = true ∧
    (nextOf (step (scanning [] 0 0 [.wait]))).isSome = true := by decide

/-- With `witness_fsmTurn`: two states that differ in their registers and in the events behind the turn. -/
theorem witness_FsmStepDependsOnlyOnWhatWasLatched :
    ({ candidate 0 with argEnd := 9, cmdErr := true, inputs := [.fsm, .wait] } : State).fsm =
      (candidate 0).fsm ∧
    (candidate 0).fsm ≠ .idle ∧ (candidate 0).fsmTurn ∧
    ({ candidate 0 with argEnd := 9, cmdErr := true, inputs := [.fsm, .wait] } : State).fsmTurn ∧
    (∀ o, memRead { candidate 0 with argEnd := 9, cmdErr := true, inputs := [.fsm, .wait] } o =
      memRead (candidate 0) o) ∧
    (nextOf (step (candidate 0))).isSome = true :=
  ⟨rfl, by decide, .inl rfl, .inr ⟨_, rfl⟩, fun _ => rfl, by decide⟩

theorem witness_ScanCompletesWithTheFirstValidHeader :
    (scanning [0, 0, 0xFF, 0xFB, 0x90, 0] 0 5 []).fsm = .scan ∧
    (scanning [0, 0, 0xFF, 0xFB, 0x90, 0] 0 5 []).inputs = [] ∧
    bufferCovers (scanning [0, 0, 0xFF, 0xFB, 0x90, 0] 0 5 []) = true := by decide

/-- For ParseReturnsItsOneCandidate, LocateReturnsTheFirstValidHeader and
AdvanceReturnsAStrictlyHigherOffset. -/
theorem witness_WholeCommands :
    (commanded 1 true 417).fsm = .idle ∧ (1 : Word).extractLsb' 0 3 = 1#3 ∧
    (2 : Word).extractLsb' 0 3 = 2#3 ∧ (3 : Word).extractLsb' 0 3 = 3#3 ∧
    (commanded 1 true 417).inputs = [.write 0x00 32 1] ∧
    (commanded 2 true 417).inputs = [.write 0x00 32 2] ∧
    (commanded 3 true 417).inputs = [.write 0x00 32 3] ∧
    (commanded 3 true 417).bufLen.toNat ≤ (commanded 3 true 417).bufSize.toNat ∧
    (commanded 3 true 417).found = true ∧ (commanded 3 false 0).found = false := by decide

/-- The header that stands in `followed`, at offset 5. -/
def nextHeader : HeaderRecord where
  offset := 5
  word := 0xFFF314C0
  version := .v2
  layer := .l3
  crc := 1
  bitrate := 8
  srate := 24000
  padded := 0
  chmode := .mono
  modeExt := ⟨0, 0, 0, 0⟩
  copyright := 0
  original := 0
  emphasis := .none
  frameSize := 48

/-- A previous header at 0 of size 5, and the next one right behind it, at ARG_END. -/
def followed : State :=
  { withBuffer [0, 0, 0, 0, 0, 0xFF, 0xF3, 0x14, 0xC0] [.write 0x00 32 3] with
    argEnd := 5, hdr := ⟨0, 0, 1, 0, 0, 5⟩ }

theorem witness_AdvanceLandsOnTheNextFrame :
    followed.fsm = .idle ∧ (3 : Word).extractLsb' 0 3 = 3#3 ∧
    followed.inputs = [.write 0x00 32 3] ∧
    followed.bufLen.toNat ≤ followed.bufSize.toNat ∧ followed.found = true ∧ followed.hdr.frameSize ≠ 0 ∧
    followed.hdr.offset.toNat + followed.hdr.frameSize.toNat ≤ followed.argEnd.toNat ∧
    headerAt { followed with len := followed.bufLen }
      (followed.hdr.offset.toNat + followed.hdr.frameSize.toNat) = some (.valid nextHeader) := by decide

/-- The header of program P1's frame at offset `o` (HV-17). -/
def frameHeader (o : Word) : HeaderRecord := { nextHeader with offset := o }

/-- Program P1's buffer with two of its frames, only the headers' bytes filled. -/
def twoFrames (k : Nat) : State :=
  { State.reset with
    mem := bytesFrom 0 [0xFF, 0xF3, 0x14, 0xC0] ++ bytesFrom 48 [0xFF, 0xF3, 0x14, 0xC0],
    bufSize := 96, bufLen := 96, inputs := framesProgram (96 - 1) k }

/-- For the first header (k = 0), for the second (k = 1) and for the end (k = 2). -/
theorem witness_KFramesAreFoundInOrderThenInvalid :
    (twoFrames 2).fsm = .idle ∧ (twoFrames 2).bufLen.toNat ≤ (twoFrames 2).bufSize.toNat ∧
    FramesFrom { twoFrames 2 with len := (twoFrames 2).bufLen } 0 [frameHeader 0, frameHeader 48] ∧
    2 ≤ [frameHeader 0, frameHeader 48].length ∧
    (twoFrames 2).inputs = framesProgram ((twoFrames 2).bufLen - 1) 2 :=
  ⟨rfl, by decide, ⟨by decide, by decide, by decide, by decide, rfl⟩, by decide, rfl⟩

/-- A poll while a scan runs, and one while a TAGSIZE runs. -/
theorem witness_WaitEndsWithTheCommandsResult :
    (scanning [0, 0, 0xFF, 0xFB, 0x90, 0] 0 5 [.wait]).fsm = .scan ∧
    (scanning [0, 0, 0xFF, 0xFB, 0x90, 0] 0 5 [.wait]).inputs = [.wait] ∧
    bufferCovers (scanning [0, 0, 0xFF, 0xFB, 0x90, 0] 0 5 [.wait]) = true ∧
    (tagging [1, 2, 3]).fsm = .tag ∧
    ({ tagging [1, 2, 3] with inputs := [.wait] } : State).inputs = [.wait] ∧
    bufferCovers { tagging [1, 2, 3] with inputs := [.wait] } = true := by decide

/-- With 10 bytes, and with fewer. -/
theorem witness_TagsizeMeasuresTheLeadingTag :
    (withBuffer [1, 2, 3, 4, 5, 6, 7, 8, 9, 10] [.write 0x00 32 4]).fsm = .idle ∧
    (withBuffer [1, 2, 3, 4, 5, 6, 7, 8, 9, 10] [.write 0x00 32 4]).params.id3Unit = .present ∧
    (4 : Word).extractLsb' 0 3 = 4#3 ∧
    (withBuffer [1, 2, 3, 4, 5, 6, 7, 8, 9, 10] [.write 0x00 32 4]).inputs = [.write 0x00 32 4] ∧
    (withBuffer [1, 2, 3, 4, 5, 6, 7, 8, 9, 10] [.write 0x00 32 4]).bufLen.toNat ≤
      (withBuffer [1, 2, 3, 4, 5, 6, 7, 8, 9, 10] [.write 0x00 32 4]).bufSize.toNat ∧
    10 ≤ (withBuffer [1, 2, 3, 4, 5, 6, 7, 8, 9, 10] [.write 0x00 32 4]).bufLen.toNat ∧
    (∀ k : Fin 10, memRead (withBuffer [1, 2, 3, 4, 5, 6, 7, 8, 9, 10] [.write 0x00 32 4]) k.val =
      some (BitVec.ofNat 8 (k.val + 1))) ∧
    (withBuffer [1] [.write 0x00 32 4]).bufLen.toNat < 10 := by decide

/-- While idle at the last offset, and while busy at the latched length of a larger buffer; a new buffer
while idle, and while a command with S.len = 0 runs. -/
theorem witness_LoaderFillsBytesAndHandsOverBuffers :
    (withBuffer [1, 2, 3, 4] [.fill 3 9]).inputs = .fill 3 9 :: [] ∧
    (3 : Word).toNat < (withBuffer [1, 2, 3, 4] [.fill 3 9]).bufSize.toNat ∧
    (withBuffer [1, 2, 3, 4] [.fill 3 9]).busy = false ∧
    ({ scanning [1, 2, 3, 4] 0 0 [.fill 3 9] with len := 3 } : State).len.toNat ≤ (3 : Word).toNat ∧
    (withBuffer [] [.newBuffer 7]).inputs = .newBuffer 7 :: [] ∧
    (withBuffer [] [.newBuffer 7]).busy = false ∧ (scanning [] 0 0 [.newBuffer 7]).len = 0 := by decide

/-- The last offset below S.len while busy; the first offset past the buffer; a new buffer while busy. -/
theorem witness_LoaderMovesThatBreakADutyAreRefused :
    (scanning [1, 2, 3, 4] 0 0 [.fill 3 9]).inputs = .fill 3 9 :: [] ∧
    (scanning [1, 2, 3, 4] 0 0 [.fill 3 9]).busy = true ∧
    (3 : Word).toNat < (scanning [1, 2, 3, 4] 0 0 [.fill 3 9]).len.toNat ∧
    (withBuffer [1, 2, 3, 4] [.fill 4 9]).busy = false ∧
    (withBuffer [1, 2, 3, 4] [.fill 4 9]).bufSize.toNat ≤ (4 : Word).toNat ∧
    (scanning [1] 0 0 [.newBuffer 7]).inputs = .newBuffer 7 :: [] ∧
    (scanning [1] 0 0 [.newBuffer 7]).busy = true ∧ (scanning [1] 0 0 [.newBuffer 7]).len ≠ 0 := by
  decide

end Sys2Proof.Tests
end

section
/-!
PROOFS. Which register an access reaches (10 R20, R21), and the step that carries the access out: one
rule for reads, one for plain writes, one for writes to CMD. The obligations about the register file
follow from these rules.
-/

namespace Sys2Proof.Machine

/-! ### Which register an access reaches -/

/-- Narrow, misaligned and out-of-range accesses reach no register (10 R21a). -/
theorem regAt_eq_none {offset width : Nat} (h : width ≠ 32 ∨ offset % 4 ≠ 0 ∨ 0x3C < offset) :
    regAt offset width = none := by
  unfold regAt
  split
  · rename_i hlegal
    obtain ⟨hwidth, haligned⟩ := hlegal
    have hrange : 16 ≤ offset / 4 := by omega
    exact List.getElem?_eq_none hrange
  · rfl

/-- Every other access reaches one. -/
theorem regAt_isSome {offset : Nat} (haligned : offset % 4 = 0) (hrange : offset ≤ 0x3C) :
    ∃ r, regAt offset 32 = some r := by
  have hlt : offset / 4 < allRegs.length := by
    have : allRegs.length = 16 := rfl
    omega
  exact ⟨allRegs[offset / 4], by rw [regAt, if_pos ⟨rfl, haligned⟩, List.getElem?_eq_getElem hlt]⟩

/-- A 32-bit access at a register's own offset reaches that register. -/
@[simp] theorem regAt_offset (r : Reg) : regAt r.offset 32 = some r := by
  cases r with
  | reserved k => fin_cases k <;> rfl
  | _ => rfl

/-- The four reserved offsets are those of the reserved registers. -/
theorem exists_reserved_offset {offset : Nat} (h : offset ∈ [0x30, 0x34, 0x38, 0x3C]) :
    ∃ k, offset = (Reg.reserved k).offset := by
  simp only [List.mem_cons, List.not_mem_nil, or_false] at h
  rcases h with rfl | rfl | rfl | rfl
  exacts [⟨0, rfl⟩, ⟨1, rfl⟩, ⟨2, rfl⟩, ⟨3, rfl⟩]

/-! ### Reads and plain writes -/

/-- A host read that reaches a register returns its value and changes nothing else (10 R21d). -/
theorem hostRead_of_regAt {offset width : Nat} {r : Reg} (s : State)
    (h : regAt offset width = some r) :
    hostRead offset width s = .next { s with rdata := readReg r s } := by
  simp only [hostRead, h]

/-- A host write that reaches a register other than CMD is that register's write. -/
theorem hostWrite_of_regAt {offset width : Nat} {r : Reg} (v : Word) (s : State) (hr : r ≠ .cmd)
    (h : regAt offset width = some r) :
    hostWrite offset width v s = .next (writeReg r v s) := by
  rw [hostWrite, h]
  cases r with
  | cmd => exact absurd rfl hr
  | _ => rfl

/-- What a register reads as does not depend on the events to come. -/
theorem readReg_inputs (r : Reg) (s : State) (ins : List Input) :
    readReg r { s with inputs := ins } = readReg r s := by
  cases r <;> rfl

/-- The step that reads a register. -/
theorem step_read {s : State} {rest : List Input} (r : Reg)
    (h : s.inputs = .read r.offset 32 :: rest) :
    step s = .next { s with inputs := rest, rdata := readReg r s } := by
  rw [step_cons h, handleInput, hostRead_of_regAt _ (regAt_offset r), readReg_inputs]

/-- The step that writes a register other than CMD. -/
theorem step_write {s : State} {v : Word} {rest : List Input} (r : Reg) (hr : r ≠ .cmd)
    (h : s.inputs = .write r.offset 32 v :: rest) :
    step s = .next (writeReg r v { s with inputs := rest }) := by
  rw [step_cons h, handleInput, hostWrite_of_regAt v _ hr (regAt_offset r)]

/-- Settles O32: each offset is its register's, and a read step returns that register's value. -/
theorem readsReturnTheRegisterAndChangeNothing :
    Obligations.ReadsReturnTheRegisterAndChangeNothing := by
  intro s offset rest h
  refine ⟨?_, ?_, ?_, ?_, ?_, ?_, ?_, ?_, ?_, ?_, ?_, ?_⟩ <;> rintro rfl
  exacts [step_read .cmd h, step_read .status h, step_read .bufLen h, step_read .argStart h,
    step_read .argEnd h, step_read .hdrOffset h, step_read .hdrWord h, step_read .hdrFields h,
    step_read .hdrBitrate h, step_read .hdrSrate h, step_read .hdrFrameSize h, step_read .tagSize h]

/-- Settles O34: each offset is its register's, and a write step is that register's `writeReg`. -/
theorem writesToRegistersTouchOnlyTheirOwn : Obligations.WritesToRegistersTouchOnlyTheirOwn := by
  intro s offset v rest h
  refine ⟨?_, ?_, ?_, ?_, ?_, ?_⟩
  · rintro rfl hv
    rw [step_write .status nofun h]
    simp only [writeReg, cmdErrAfterWrite, hv, if_true]
  · rintro rfl hv
    rw [step_write .status nofun h]
    simp only [writeReg, cmdErrAfterWrite, hv, Bool.false_eq_true, if_false]
  · rintro rfl
    exact step_write .bufLen nofun h
  · rintro rfl
    exact step_write .argStart nofun h
  · rintro rfl
    exact step_write .argEnd nofun h
  · intro hmem
    simp only [List.mem_cons, List.not_mem_nil, or_false] at hmem
    rcases hmem with rfl | rfl | rfl | rfl | rfl | rfl | rfl
    exacts [step_write .hdrOffset nofun h, step_write .hdrWord nofun h,
      step_write .hdrFields nofun h, step_write .hdrBitrate nofun h, step_write .hdrSrate nofun h,
      step_write .hdrFrameSize nofun h, step_write .tagSize nofun h]

/-- Settles O35: `readReg` of a reserved register is 0, and its `writeReg` changes nothing. -/
theorem reservedOffsetsReadZeroAndIgnoreWrites :
    Obligations.ReservedOffsetsReadZeroAndIgnoreWrites := by
  intro s offset rest hmem
  obtain ⟨k, rfl⟩ := exists_reserved_offset hmem
  exact ⟨fun h => step_read (.reserved k) h, fun v h => step_write (.reserved k) nofun h⟩

/-! ### Writes to CMD -/

/-- A write to CMD of a word that decodes runs the decoded command (10 R22). -/
theorem hostWrite_cmd_of_ok {v : Word} {i : Instr} (s : State) (h : decodeCmd v = .ok i) :
    hostWrite 0x00 32 v s = exec i s := by
  rw [hostWrite, show regAt 0x00 32 = some .cmd from rfl]
  simp only [h]

/-- A write to CMD of a reserved OP is rejected (30 R96). -/
theorem hostWrite_cmd_of_error {v : Word} {e : Reject} (s : State) (h : decodeCmd v = .error e) :
    hostWrite 0x00 32 v s = .next (reject s) := by
  rw [hostWrite, show regAt 0x00 32 = some .cmd from rfl]
  simp only [h]

/-- Settles O26: a write to CMD is `hostWrite` at offset 0, which executes the decoded word. -/
theorem stepRunsTheWrittenCommand : Obligations.StepRunsTheWrittenCommand := by
  intro s v i rest hin hdec
  rw [step_cons hin, handleInput, hostWrite_cmd_of_ok _ hdec]

/-- A word that decodes to a command is accepted exactly in IDLE, and TAGSIZE only with the unit. -/
theorem acceptsWrite_iff_of_ok {v : Word} {i : Instr} (s : State) (h : decodeCmd v = .ok i) :
    acceptsWrite v s = true ↔
      s.fsm = .idle ∧ ¬∃ g, i = .tagsize g ∧ s.params.id3Unit = .absent := by
  have hunit : s.params.id3Unit = .present ↔ s.params.id3Unit ≠ .absent := by
    cases s.params.id3Unit <;> simp
  unfold decodeCmd at h
  dsimp only at h
  split_ifs at h with h1 h2 h3 h4 <;> cases h
  · simp [acceptsWrite, h1]
  · simp [acceptsWrite, h2]
  · simp [acceptsWrite, h3]
  · simp [acceptsWrite, h4, hunit]

/-- A word with a reserved OP is never accepted. -/
theorem acceptsWrite_of_error {v : Word} {e : Reject} (s : State) (h : decodeCmd v = .error e) :
    acceptsWrite v s = false := by
  unfold decodeCmd at h
  dsimp only at h
  split_ifs at h with h1 h2 h3 h4
  simp [acceptsWrite, h1, h2, h3, h4]

/-- A write to CMD is an acceptance or a rejection, as `acceptsWrite` says (41 R160, R161). -/
theorem hostWrite_cmd_cases (v : Word) (s : State) :
    (acceptsWrite v s = true ∧ ∃ t, hostWrite 0x00 32 v s = accept t s) ∨
    (acceptsWrite v s = false ∧ hostWrite 0x00 32 v s = .next (reject s)) := by
  cases hdec : decodeCmd v with
  | error e => exact .inr ⟨acceptsWrite_of_error s hdec, hostWrite_cmd_of_error s hdec⟩
  | ok i =>
    have hiff := acceptsWrite_iff_of_ok s hdec
    rw [hostWrite_cmd_of_ok s hdec]
    rcases exec_command s (decodeCmd_isCommand hdec) with
      ⟨hwhy, he⟩ | ⟨hidle, hne, c, l, he, -⟩ | ⟨hidle, hunit, he⟩
    · refine .inr ⟨?_, he⟩
      rw [Bool.eq_false_iff, ne_eq, hiff]
      rintro ⟨hidle, hno⟩
      exact hwhy.elim (· hidle) hno
    · exact .inl ⟨hiff.mpr ⟨hidle, fun ⟨g, hg, _⟩ => hne g hg⟩, _, he⟩
    · exact .inl ⟨hiff.mpr ⟨hidle, fun ⟨_, _, habsent⟩ => by simp [hunit] at habsent⟩, _, he⟩

/-- An accepted write to CMD with BUF_LEN above the buffer's size is refused (70 R230). -/
theorem hostWrite_cmd_refused {v : Word} {s : State} (ha : acceptsWrite v s = true)
    (hlen : s.bufSize.toNat < s.bufLen.toNat) :
    hostWrite 0x00 32 v s = .refused .bufLenAboveBuffer := by
  rcases hostWrite_cmd_cases v s with ⟨-, t, he⟩ | ⟨hn, -⟩
  · rw [he, accept, if_pos hlen]
  · rw [ha] at hn
    cases hn

/-- Every other write to CMD answers a next state. -/
theorem hostWrite_cmd_answers {v : Word} {s : State}
    (h : acceptsWrite v s = false ∨ s.bufLen.toNat ≤ s.bufSize.toNat) :
    ∃ t, hostWrite 0x00 32 v s = .next t := by
  rcases hostWrite_cmd_cases v s with ⟨ha, t, he⟩ | ⟨-, he⟩
  · have hlen : s.bufLen.toNat ≤ s.bufSize.toNat := h.resolve_left (by simp [ha])
    exact ⟨t, by rw [he, accept_of_le hlen]⟩
  · exact ⟨_, he⟩

/-- An access that reaches no register is refused (20 R66). -/
theorem step_badAccess {s : State} {offset width : Nat} {v : Word} {rest : List Input}
    (hin : s.inputs = .write offset width v :: rest ∨ s.inputs = .read offset width :: rest)
    (h : regAt offset width = none) : step s = .refused .badRegisterAccess := by
  rcases hin with hin | hin <;> rw [step_cons hin]
  · simp only [handleInput, hostWrite, h]
  · simp only [handleInput, hostRead, h]

/-- Settles O36: an illegal access reaches no register; a legal read answers, and so does a legal
write but for an acceptance with BUF_LEN above the buffer. -/
theorem onlyIllegalAccessesAreRefused : Obligations.OnlyIllegalAccessesAreRefused := by
  intro s offset width v rest
  refine ⟨fun hin hbad => step_badAccess hin (regAt_eq_none hbad), ?_, ?_⟩
  · rintro hin rfl haligned hrange
    obtain ⟨r, hr⟩ := regAt_isSome haligned hrange
    exact ⟨_, by rw [step_cons hin, handleInput, hostRead_of_regAt _ hr]⟩
  · rintro hin rfl haligned hrange
    rw [step_cons hin, handleInput]
    refine ⟨fun ⟨hcmd, ha, hlen⟩ => hcmd ▸ hostWrite_cmd_refused ha hlen, fun h => ?_⟩
    obtain ⟨r, hr⟩ := regAt_isSome haligned hrange
    by_cases hcmd : r = .cmd
    · subst hcmd
      obtain ⟨rfl, -⟩ := regAt_eq_cmd hr
      exact hostWrite_cmd_answers (h.resolve_left (· rfl))
    · exact ⟨_, hostWrite_of_regAt v _ hcmd hr⟩

end Sys2Proof.Machine
end

section
/-!
PROOFS. STATUS bit by bit (10 R23), and HDR_FIELDS as the concatenation of its fields (10 R29): the OR
of shifted fields that 41 R170 writes is that concatenation, so every field can be read back.
-/

namespace Sys2Proof.Machine

/-- BUSY is 1 exactly when the FSM is not idle (10 R41). -/
theorem busy_iff (s : State) : s.busy = true ↔ s.fsm ≠ .idle := by
  simp only [State.busy, bne_iff_ne]

/-- Settles O33: STATUS is the concatenation of its four flags below 28 zeros. -/
theorem statusBitsAreTheFlags : Obligations.StatusBitsAreTheFlags := by
  intro s
  have hbits : s.statusWord.getLsbD 0 = s.busy ∧ s.statusWord.getLsbD 1 = s.done ∧
      s.statusWord.getLsbD 2 = s.found ∧ s.statusWord.getLsbD 3 = s.cmdErr := by
    unfold State.statusWord
    simp only [BitVec.getLsbD_append]
    simp
  obtain ⟨hbusy, hdone, hfound, hcmdErr⟩ := hbits
  have hzero : s.statusWord.extractLsb' 4 28 = 0 := by
    unfold State.statusWord
    apply BitVec.eq_of_getLsbD_eq
    intro i hi
    simp only [BitVec.getLsbD_extractLsb', BitVec.getLsbD_append]
    interval_cases i <;> simp
  exact ⟨by rw [hbusy, busy_iff], hdone, hfound, hcmdErr, hzero, rfl⟩

/-! ### The packing of HDR_FIELDS -/

/-- The two bits of a version's code (10 R31). -/
def versionBits : Version → BitVec 2
  | .v1 => 0#2
  | .v2 => 1#2
  | .v2_5 => 2#2

/-- The two bits of a layer's code (10 R31). -/
def layerBits : Layer → BitVec 2
  | .l1 => 1#2
  | .l2 => 2#2
  | .l3 => 3#2

/-- The two bits of a channel mode's code (10 R31). -/
def chmodeBits : ChannelMode → BitVec 2
  | .stereo => 0#2
  | .jointStereo => 1#2
  | .dualChannel => 2#2
  | .mono => 3#2

/-- The two bits of an emphasis's code (10 R31). -/
def emphasisBits : Emphasis → BitVec 2
  | .none => 0#2
  | .ms5015 => 1#2
  | .ccittJ17 => 2#2
  | .reserved => 3#2

theorem versionCode_eq (v : Version) : versionCode v = (versionBits v).setWidth 25 := by
  cases v <;> rfl

theorem layerCode_eq (l : Layer) : layerCode l = (layerBits l).setWidth 25 := by
  cases l <;> rfl

theorem chmodeCode_eq (m : ChannelMode) : chmodeCode m = (chmodeBits m).setWidth 25 := by
  cases m <;> rfl

theorem emphasisCode_eq (e : Emphasis) : emphasisCode e = (emphasisBits e).setWidth 25 := by
  cases e <;> rfl

/-- HDR_FIELDS is its fields side by side, the topmost first (10 R29): no two overlap. -/
theorem packFields_eq_append (h : HeaderRecord) :
    packFields h =
      h.modeExt.upperBand ++ h.modeExt.lowerBand ++ h.modeExt.ms ++ h.modeExt.intensity
        ++ emphasisBits h.emphasis ++ h.original ++ h.copyright ++ chmodeBits h.chmode ++ h.padded
        ++ h.crc ++ layerBits h.layer ++ versionBits h.version ++ 1#1 := by
  unfold packFields
  rw [versionCode_eq, layerCode_eq, chmodeCode_eq, emphasisCode_eq]
  apply BitVec.eq_of_getLsbD_eq
  intro i hi
  simp only [BitVec.getLsbD_append, BitVec.getLsbD_or, BitVec.getLsbD_shiftLeft,
    BitVec.getLsbD_setWidth]
  interval_cases i <;> simp

/-- Settles O14: each bit range read from the concatenation is one of its fields. -/
theorem hdrFieldsUnpackToTheHeader : Obligations.HdrFieldsUnpackToTheHeader := by
  intro h
  dsimp only
  rw [show (resultImage (.valid h)).fields = packFields h from rfl, packFields_eq_append]
  refine ⟨?_, (?_ : _ = versionBits h.version), (?_ : _ = layerBits h.layer), ?_, ?_,
    (?_ : _ = chmodeBits h.chmode), ?_, ?_, (?_ : _ = emphasisBits h.emphasis), ?_, ?_, ?_, ?_, ?_⟩
  all_goals
    apply BitVec.eq_of_getLsbD_eq
    intro i hi
    simp only [BitVec.getLsbD_extractLsb', BitVec.getLsbD_setWidth, BitVec.getLsbD_append]
    interval_cases i <;> simp

end Sys2Proof.Machine
end

section
/-!
PROOFS. The FSM in IDLE (10 R41), and what one step within or at the end of a scan does to the
cursor and to the result registers (10 R37, R45).
-/

namespace Sys2Proof.Machine

/-- The two kinds of step that are the FSM's (20 R73, log 1), as one: at its turn the FSM steps from `s`
with some events to come. -/
theorem fsmStep_of_turn {s t : State}
    (h : (s.inputs = [] ∧ fsmStep s = .next t) ∨
      ∃ rest, s.inputs = .fsm :: rest ∧ fsmStep { s with inputs := rest } = .next t) :
    s.fsmTurn ∧ ∃ ins, fsmStep { s with inputs := ins } = .next t := by
  rcases h with ⟨hin, hfsm⟩ | ⟨rest, hin, hfsm⟩
  · exact ⟨.inl hin, s.inputs, hfsm⟩
  · exact ⟨.inr ⟨rest, hin⟩, rest, hfsm⟩

/-- In IDLE the FSM has no step. -/
theorem fsmStep_idle {s : State} (h : s.fsm = .idle) : fsmStep s = .next s := by
  simp only [fsmStep, h]

/-- Settles O31: both kinds of step are a turn of the idle FSM. -/
theorem idleFsmTakesNoStep : Obligations.IdleFsmTakesNoStep := by
  intro s hidle
  refine ⟨fun hin => ?_, fun rest hin => ?_⟩
  · rw [step_nil hin, fsmStep_idle hidle]
  · rw [step_cons hin]
    exact fsmStep_idle hidle

/-- A turn of the FSM keeps the result header, unless it completes a scan. -/
theorem fsmStep_hdr {s t : State} (h : fsmStep s = .next t) :
    t.hdr = s.hdr ∨ (s.fsm = .scan ∧ t.fsm = .idle ∧ t.done = true) := by
  rcases fsmStep_next h with ⟨-, rfl⟩ | ⟨-, v, -, rfl⟩ | ⟨hscan, hd, rfl, -⟩
  · exact .inl rfl
  · exact .inl rfl
  · rcases scanStep_cases hd s with ⟨-, he⟩ | ⟨-, r, -, he⟩ | ⟨-, -, he⟩ <;> rw [he]
    · exact .inr ⟨hscan, rfl, rfl⟩
    · exact .inr ⟨hscan, rfl, rfl⟩
    · exact .inl rfl

/-- No host write changes the result header. -/
theorem hostWrite_hdr {offset width : Nat} {v : Word} {s t : State}
    (h : hostWrite offset width v s = .next t) : t.hdr = s.hdr := by
  rcases hostWrite_next h with
    ⟨-, -, rfl⟩ | ⟨-, -, -, -, c, l, rfl, -⟩ | ⟨-, -, -, -, -, rfl⟩ | ⟨r, -, -, rfl⟩
  · rfl
  · rfl
  · rfl
  · exact (writeReg_frame r v s).2.1

/-- Settles O43: of the kinds of step only reset and the FSM's turn reach the result header. -/
theorem resultHeaderChangesOnlyAtCompletionOrReset :
    Obligations.ResultHeaderChangesOnlyAtCompletionOrReset := by
  intro s t hstep hne
  rcases step_next hstep with hturn | ⟨o, width, v, rest, -, hw⟩ |
    ⟨o, width, rest, v, -, rfl⟩ | ⟨rest, ins, v, -, rfl⟩ | ⟨rest, hin, -⟩ |
    ⟨size, rest, -, rfl⟩ | ⟨o, b, rest, -, -, rfl⟩
  · obtain ⟨hturn, ins, hfsm⟩ := fsmStep_of_turn hturn
    obtain ⟨hscan, hidle, hdone⟩ := (fsmStep_hdr hfsm).resolve_left hne
    exact .inl ⟨hscan, hidle, hdone, hturn⟩
  · exact absurd (hostWrite_hdr hw) hne
  · exact absurd rfl hne
  · exact absurd rfl hne
  · exact .inr ⟨rest, hin⟩
  · exact absurd rfl hne
  · exact absurd rfl hne

/-! ### The cursor within a scan -/

/-- A turn of the FSM that leaves a scan running moves its cursor on by 1 (10 R45). -/
theorem fsmStep_cur_of_scanning {s t : State} (h : fsmStep s = .next t)
    (hs : s.fsm = .scan) (ht : t.fsm = .scan) : t.cur.toNat = s.cur.toNat + 1 := by
  rcases fsmStep_next h with ⟨hidle, -⟩ | ⟨htag, -⟩ | ⟨-, hd, rfl, -⟩
  · rw [hs] at hidle
    cases hidle
  · rw [hs] at htag
    cases htag
  · rcases scanStep_cases hd s with ⟨-, he⟩ | ⟨-, r, -, he⟩ | ⟨hlim, -, he⟩ <;> rw [he] at ht ⊢
    · cases ht
    · cases ht
    · exact cursor_succ hlim

/-- A host write while a scan runs leaves its cursor, limit and length alone (41 R161, R177). -/
theorem hostWrite_scan_latched {offset width : Nat} {v : Word} {s t : State}
    (h : hostWrite offset width v s = .next t) (hs : s.fsm = .scan) :
    t.cur = s.cur ∧ t.lim = s.lim ∧ t.len = s.len := by
  rcases hostWrite_next h with
    ⟨-, -, rfl⟩ | ⟨-, -, hidle, -⟩ | ⟨-, -, hidle, -⟩ | ⟨r, -, -, rfl⟩
  · exact ⟨rfl, rfl, rfl⟩
  · rw [hs] at hidle
    cases hidle
  · rw [hs] at hidle
    cases hidle
  · obtain ⟨-, -, -, -, -, hcur, hlim, hlen, -⟩ := writeReg_frame r v s
    exact ⟨hcur, hlim, hlen⟩

/-- Settles O45: only the FSM's turn moves the cursor of a running scan. -/
theorem cursorOnlyMovesUpByOne : Obligations.CursorOnlyMovesUpByOne := by
  intro s t hs ht hstep
  rcases step_next hstep with hturn | ⟨o, width, v, rest, -, hw⟩ |
    ⟨o, width, rest, v, -, rfl⟩ | ⟨rest, ins, v, -, rfl⟩ | ⟨rest, -, rfl⟩ |
    ⟨size, rest, -, rfl⟩ | ⟨o, b, rest, -, -, rfl⟩
  · obtain ⟨-, ins, hfsm⟩ := fsmStep_of_turn hturn
    have hcur := fsmStep_cur_of_scanning hfsm hs ht
    obtain ⟨-, -, -, -, -, hlim, hlen, -⟩ := fsmStep_frame hfsm
    exact ⟨.inr hcur, hlim, hlen⟩
  · obtain ⟨hcur, hlim, hlen⟩ := hostWrite_scan_latched hw hs
    exact ⟨.inl hcur, hlim, hlen⟩
  · exact ⟨.inl rfl, rfl, rfl⟩
  · exact ⟨.inl rfl, rfl, rfl⟩
  · cases ht
  · exact ⟨.inl rfl, rfl, rfl⟩
  · exact ⟨.inl rfl, rfl, rfl⟩

end Sys2Proof.Machine
end

section
/-!
PROOFS. The invariant `State.Inv`: the bounds its fields rest on (40 R131, 42 R190, R193, 00 R6), then
one lemma for each operation that it keeps the invariant, then the step as a whole.
-/

namespace Sys2Proof.Machine

/-! ### Bounds of the datapath -/

/-- The divider's result for a 9-bit bitrate and a sample rate of the table (40 R131). -/
theorem frameSize_le {br sr pad : Nat} (hbr : br < 512) (hsr : 8000 ≤ sr) (hpad : pad < 2) :
    frameSize br sr pad ≤ 9199 := by
  unfold frameSize
  split
  · omega
  · have hdiv : 144 * br * 1000 / sr ≤ 144 * 511 * 1000 / 8000 :=
      Nat.div_le_div (by omega) hsr (by decide)
    omega

/-- The frame size of a valid header, whatever the bitrate table (40 R131). -/
theorem decodeHeader_frameSize_le {t : BitrateLut} {w o : Word} {r : HeaderRecord}
    (h : decodeHeader t w o = .valid r) : r.frameSize.toNat ≤ 9199 := by
  obtain ⟨ver, lay, br, sr, -, -, -, -, hsr, rfl⟩ := (decodeHeader_eq_valid_iff t w o r).mp h
  obtain ⟨hsr, -⟩ := srateOf_range hsr
  exact (BitVec.toNat_ofNat ..).trans_le <|
    (Nat.mod_le ..).trans (frameSize_le br.isLt hsr (BitVec.isLt _))

/-- The offset of a valid header is the one it was decoded at (40 R141). -/
theorem decodeHeader_offset {t : BitrateLut} {w o : Word} {r : HeaderRecord}
    (h : decodeHeader t w o = .valid r) : r.offset = o := by
  obtain ⟨_, _, _, _, -, -, -, -, -, rfl⟩ := (decodeHeader_eq_valid_iff t w o r).mp h
  rfl

/-- Four base-128 digits stay below 2^28 (42 R193). -/
theorem synchsafe_le (b6 b7 b8 b9 : Byte) : synchsafe b6 b7 b8 b9 ≤ 268435455 := by
  have hdigit : ∀ b : Byte, (b &&& 0x7F).toNat ≤ 127 := fun b => by
    rw [BitVec.toNat_and]
    exact Nat.and_le_right
  have h6 := hdigit b6
  have h7 := hdigit b7
  have h8 := hdigit b8
  have h9 := hdigit b9
  unfold synchsafe
  omega

/-- The largest tag size: the largest synchsafe number, the header and the footer (42 R190). -/
theorem tagSizeOfPrefix_le (b0 b1 b2 flags b6 b7 b8 b9 : Byte) :
    (tagSizeOfPrefix b0 b1 b2 flags b6 b7 b8 b9).toNat ≤ 268435475 := by
  have hsize := synchsafe_le b6 b7 b8 b9
  unfold tagSizeOfPrefix
  split_ifs
  · exact Nat.zero_le _
  · exact (BitVec.toNat_ofNat ..).trans_le <| (Nat.mod_le ..).trans (by omega)
  · exact (BitVec.toNat_ofNat ..).trans_le <| (Nat.mod_le ..).trans (by omega)

/-- The same bound for what a tag step writes. -/
theorem tagSizeOf_le {s : State} {v : Word} (h : tagSizeOf s = some v) : v.toNat ≤ 268435475 := by
  unfold tagSizeOf at h
  split at h
  · cases h
    exact Nat.zero_le _
  · split at h
    · cases h
      exact tagSizeOfPrefix_le ..
    · cases h

/-! ### The result header and the origin of an ADVANCE -/

/-- The image of a decoded candidate inside a buffer is one header value (10 R37). -/
theorem holdsHeader_decodeHeader (t : BitrateLut) (w : Word) {o : Word}
    (ho : o.toNat + 4 < 2 ^ 32) :
    HoldsHeader t (resultImage (decodeHeader t w o)) := by
  cases hd : decodeHeader t w o with
  | invalid => exact .inl rfl
  | valid r => exact .inr ⟨w, o, r, hd, ho, rfl⟩

/-- The end of the frame that the result registers describe (00 R6). -/
theorem HoldsHeader.frameEnd_le {t : BitrateLut} {r : ResultRegs} (h : HoldsHeader t r) :
    r.offset.toNat + r.frameSize.toNat ≤ 2 ^ 32 + 9194 := by
  obtain rfl | ⟨w, o, hr, hd, ho, rfl⟩ := h
  · decide
  · have hsize := decodeHeader_frameSize_le hd
    have hoff := decodeHeader_offset hd
    simp only [resultImage, hoff]
    omega

/-- The origin of an ADVANCE keeps the cursor's bound (00 R6, 41 R164 to R166). -/
theorem advanceOrigin_le {t : BitrateLut} {s : State} (h : HoldsHeader t s.hdr) :
    (advanceOrigin s).toNat ≤ 2 ^ 32 + 9194 := by
  have hend := h.frameEnd_le
  have harg := s.argEnd.isLt
  have hoff := s.hdr.offset.isLt
  unfold advanceOrigin
  split_ifs <;> bv_omega

/-! ### Each operation keeps the invariant -/

variable {s : State}

/-- The agents' own fields, the events to come and the last read value, are not in the invariant. -/
theorem State.Inv.withAgentFields (h : s.Inv) (ins : List Input) (v : Word) :
    ({ s with inputs := ins, rdata := v } : State).Inv := { h with }

/-- Rejection keeps the invariant. -/
theorem State.Inv.reject (h : s.Inv) : (reject s).Inv := { h with }

/-- Every plain register write keeps the invariant. -/
theorem State.Inv.writeReg (h : s.Inv) (r : Reg) (v : Word) : (writeReg r v s).Inv := by
  cases r <;> exact { h with }

/-- Acceptance of a scan keeps the invariant, from an origin within the cursor's bound (41 R160). -/
theorem State.Inv.acceptScan (h : s.Inv) (hlen : s.bufLen.toNat ≤ s.bufSize.toNat) {c : Cursor}
    (hc : c.toNat ≤ 2 ^ 32 + 9194) (l : Word) : (acceptScan c l s).Inv :=
  { h with
    busyNotDone := fun _ => rfl
    noTagWithoutUnit := fun hu => ⟨nofun, (h.noTagWithoutUnit hu).2⟩
    covered := fun _ => hlen
    cursorBound := hc }

/-- Acceptance of a TAGSIZE keeps the invariant, where the unit is present (41 R160, 30 R96). -/
theorem State.Inv.acceptTag (h : s.Inv) (hlen : s.bufLen.toNat ≤ s.bufSize.toNat)
    (hu : s.params.id3Unit = .present) : (acceptTag s).Inv :=
  { h with
    busyNotDone := fun _ => rfl
    noTagWithoutUnit := fun habsent => by
      rw [acceptTag_params, hu] at habsent
      cases habsent
    covered := fun _ => hlen }

/-- Completion with a whole header value keeps the invariant (41 R170). -/
theorem State.Inv.complete (h : s.Inv) {hd : Header}
    (hhd : HoldsHeader s.params.bitrateLut (resultImage hd)) : (complete hd s).Inv :=
  { h with
    header := hhd
    busyNotDone := nofun
    noTagWithoutUnit := fun hu => ⟨nofun, (h.noTagWithoutUnit hu).2⟩
    covered := nofun }

/-- The scan step keeps the invariant: it moves the cursor only where it is not past the limit. -/
theorem State.Inv.scanStep (h : s.Inv) {hd : Header}
    (hhd : HoldsHeader s.params.bitrateLut (resultImage hd)) : (scanStep hd s).Inv := by
  rcases scanStep_cases hd s with ⟨-, he⟩ | ⟨-, r, rfl, he⟩ | ⟨hlim, -, he⟩ <;> rw [he]
  · exact h.complete (.inl rfl)
  · exact h.complete hhd
  · have hcur := cursor_succ hlim
    have hmax := s.lim.isLt
    exact { h with cursorBound := by dsimp only; omega }

/-- The end of a TAGSIZE keeps the invariant (42 R192): in TAG the unit is present. -/
theorem State.Inv.completeTag (h : s.Inv) (hf : s.fsm = .tag) {v : Word}
    (hv : v.toNat ≤ 268435475) : (completeTag v s).Inv :=
  { h with
    busyNotDone := nofun
    noTagWithoutUnit := fun hu => absurd hf (h.noTagWithoutUnit hu).1
    tagBound := hv
    covered := nofun }

/-- Reset keeps the invariant (70 R220). -/
theorem State.Inv.applyReset (h : s.Inv) : (applyReset s).Inv :=
  { h with
    header := .inl rfl
    busyNotDone := nofun
    noTagWithoutUnit := fun _ => ⟨nofun, rfl⟩
    tagBound := Nat.zero_le _
    covered := nofun
    cursorBound := Nat.zero_le _ }

/-- A turn of the FSM keeps the invariant. -/
theorem State.Inv.fsmStep (h : s.Inv) {t : State} (ht : fsmStep s = .next t) : t.Inv := by
  rcases fsmStep_next ht with ⟨-, rfl⟩ | ⟨hf, v, hv, rfl⟩ | ⟨-, hd, rfl, hcand⟩
  · exact h
  · exact h.completeTag hf (tagSizeOf_le hv)
  · refine h.scanStep ?_
    rcases hcand with ⟨rfl, -⟩ | ⟨hlen, w, rfl⟩
    · exact .inl rfl
    · have hmax := s.len.isLt
      refine holdsHeader_decodeHeader _ w ?_
      rw [BitVec.toNat_ofNat]
      omega

/-- A host write keeps the invariant. -/
theorem State.Inv.hostWrite (h : s.Inv) {offset width : Nat} {v : Word} {t : State}
    (ht : hostWrite offset width v s = .next t) : t.Inv := by
  rcases hostWrite_next ht with
    ⟨-, -, rfl⟩ | ⟨-, -, -, hlen, c, l, rfl, hc⟩ | ⟨-, -, -, hlen, hu, rfl⟩ | ⟨r, -, -, rfl⟩
  · exact h.reject
  · refine h.acceptScan hlen ?_ l
    rcases hc with rfl | rfl
    · have harg := s.argStart.isLt
      rw [BitVec.toNat_setWidth]
      omega
    · exact advanceOrigin_le h.header
  · exact h.acceptTag hlen hu
  · exact h.writeReg r v

/-- A buffer is handed over while a command runs only if no byte is below its length (20 R72). -/
theorem takeBuffer_len {size : Word} {t : State} (ht : takeBuffer size s = .next t)
    (hb : s.busy = true) : s.len = 0 := by
  unfold takeBuffer at ht
  split at ht
  · cases ht
  · rename_i hguard
    simpa [hb] using hguard

/-- A new buffer, empty of filled bytes, keeps the invariant (70 R222). -/
theorem State.Inv.newBuffer (h : s.Inv) (hlen : s.busy = true → s.len = 0) (size : Word)
    (epoch : Nat) : ({ s with mem := [], bufSize := size, bufEpoch := epoch } : State).Inv :=
  { h with
    memWf := rfl
    memInside := nofun
    covered := fun hb => by
      rw [show s.len = 0 from hlen hb]
      exact Nat.zero_le _ }

/-- One byte filled inside the buffer keeps the invariant (70 R222). -/
theorem State.Inv.fill (h : s.Inv) {o : Nat} (ho : o < s.bufSize.toNat) (b : Byte) :
    ({ s with mem := Memory.write s.mem o b } : State).Inv :=
  { h with
    memWf := Memory.write_wf s.mem o b h.memWf
    memInside := fun c hc => by
      rcases Memory.mem_write hc with rfl | hc
      · exact ho
      · exact h.memInside c hc }

/-- A step keeps the invariant: each of the seven kinds of event does. -/
theorem State.Inv.step (h : s.Inv) {t : State} (ht : step s = .next t) : t.Inv := by
  have hrest : ∀ rest, ({ s with inputs := rest } : State).Inv := fun rest =>
    h.withAgentFields rest s.rdata
  rcases step_next ht with hturn | ⟨o, width, v, rest, -, hw⟩ |
    ⟨o, width, rest, v, -, rfl⟩ | ⟨rest, ins, v, -, rfl⟩ | ⟨rest, -, rfl⟩ |
    ⟨size, rest, hin, rfl⟩ | ⟨o, b, rest, -, ho, rfl⟩
  · obtain ⟨-, ins, hfsm⟩ := fsmStep_of_turn hturn
    exact (hrest ins).fsmStep hfsm
  · exact (hrest rest).hostWrite hw
  · exact h.withAgentFields rest v
  · exact h.withAgentFields ins v
  · exact (hrest rest).applyReset
  · rw [step_cons hin] at ht
    exact (hrest rest).newBuffer (takeBuffer_len ht) size _
  · exact (hrest rest).fill ho b

end Sys2Proof.Machine
end

section
/-!
PROOFS. The state right after reset (10 R50), and the two obligations about the invariant.
-/

namespace Sys2Proof.Machine

/-- Settles O40: every register of the reset state computes to 0. -/
theorem resetStateReadsZero : Obligations.ResetStateReadsZero := by
  refine ⟨fun r => ?_, rfl, rfl, rfl, rfl, rfl, rfl, rfl, rfl⟩
  cases r <;> rfl

/-- Settles O41: nothing is listed, no command runs, and the default table is legal. -/
theorem resetStateMeetsTheInvariant : Obligations.ResetStateMeetsTheInvariant where
  memWf := rfl
  memInside := nofun
  lutLegal := by decide
  header := .inl rfl
  busyNotDone := nofun
  noTagWithoutUnit := nofun
  tagBound := Nat.zero_le _
  covered := nofun
  cursorBound := Nat.zero_le _

/-- Settles O42, by the kinds of step: every operation keeps the invariant. -/
theorem stepKeepsTheInvariant : Obligations.StepKeepsTheInvariant :=
  fun _ _ h ht => h.step ht

end Sys2Proof.Machine
end

section
/-!
PROOFS. Who reaches the buffer: no step but the loading collaborator's two moves changes its bytes
or its size (20 R60), and where those two moves are refused (20 R72, 70 R225, R230).
-/

namespace Sys2Proof.Machine

/-! ### The buffer's frame -/

/-- No host write changes the buffer. -/
theorem hostWrite_buffer {offset width : Nat} {v : Word} {s t : State}
    (h : hostWrite offset width v s = .next t) :
    t.mem = s.mem ∧ t.bufSize = s.bufSize ∧ t.bufEpoch = s.bufEpoch := by
  rcases hostWrite_next h with
    ⟨-, -, rfl⟩ | ⟨-, -, -, -, c, l, rfl, -⟩ | ⟨-, -, -, -, -, rfl⟩ | ⟨r, -, -, rfl⟩
  · exact ⟨rfl, rfl, rfl⟩
  · exact ⟨rfl, rfl, rfl⟩
  · exact ⟨rfl, rfl, rfl⟩
  · obtain ⟨-, -, -, -, -, -, -, -, hmem, hsize, hepoch, -, -⟩ := writeReg_frame r v s
    exact ⟨hmem, hsize, hepoch⟩

/-- A step keeps the buffer, unless it is one of the loading collaborator's two moves (20 R60). -/
theorem step_buffer {s t : State} (hstep : step s = .next t)
    (hnew : ∀ size rest, s.inputs ≠ .newBuffer size :: rest)
    (hfill : ∀ o b rest, s.inputs ≠ .fill o b :: rest) :
    t.mem = s.mem ∧ t.bufSize = s.bufSize ∧ t.bufEpoch = s.bufEpoch := by
  rcases step_next hstep with hturn | ⟨o, width, v, rest, -, hw⟩ |
    ⟨o, width, rest, v, -, rfl⟩ | ⟨rest, ins, v, -, rfl⟩ | ⟨rest, -, rfl⟩ |
    ⟨size, rest, hin, -⟩ | ⟨o, b, rest, hin, -⟩
  · obtain ⟨-, ins, hfsm⟩ := fsmStep_of_turn hturn
    obtain ⟨-, -, -, -, -, -, -, hmem, hsize, hepoch, -, -⟩ := fsmStep_frame hfsm
    exact ⟨hmem, hsize, hepoch⟩
  · obtain ⟨hmem, hsize, hepoch⟩ := hostWrite_buffer hw
    exact ⟨hmem, hsize, hepoch⟩
  · exact ⟨rfl, rfl, rfl⟩
  · exact ⟨rfl, rfl, rfl⟩
  · exact ⟨rfl, rfl, rfl⟩
  · exact absurd hin (hnew size rest)
  · exact absurd hin (hfill o b rest)

/-- Settles O48: every other kind of step keeps the three fields a read of the buffer looks at. -/
theorem onlyTheLoaderChangesTheBuffer : Obligations.OnlyTheLoaderChangesTheBuffer := by
  intro s t hstep hnew hfill
  obtain ⟨hmem, hsize, hepoch⟩ := step_buffer hstep hnew hfill
  exact ⟨hmem, hsize, memRead_congr hmem hsize hepoch⟩

/-! ### Where the loading collaborator's moves are refused -/

/-- No byte below the latched length of a running command may be filled (20 R72). -/
theorem fillByte_below_len {s : State} {o : Word} (b : Byte) (hb : s.busy = true)
    (ho : o.toNat < s.len.toNat) : fillByte o b s = .refused .bufferChangedWhileBusy := by
  simp only [fillByte, hb, ho, decide_true, Bool.and_self, if_true]

/-- Where 20 R72 allows the change, a byte past the buffer's end is still refused (70 R230). -/
theorem fillByte_outside {s : State} {o : Word} (b : Byte)
    (hduty : s.busy = false ∨ s.len.toNat ≤ o.toNat) (ho : s.bufSize.toNat ≤ o.toNat) :
    fillByte o b s = .refused .outsideBuffer := by
  have hguard : (s.busy && decide (o.toNat < s.len.toNat)) = false := by
    rcases hduty with hb | hlen
    · rw [hb, Bool.false_and]
    · rw [decide_eq_false (Nat.not_lt.mpr hlen), Bool.and_false]
  rw [fillByte, hguard, if_neg Bool.false_ne_true, if_neg (Nat.not_lt.mpr ho)]

/-- No buffer is handed over while a running command has bytes to read (20 R72). -/
theorem takeBuffer_busy {s : State} (size : Word) (hb : s.busy = true) (hlen : s.len ≠ 0) :
    takeBuffer size s = .refused .bufferChangedWhileBusy := by
  simp only [takeBuffer, hb, bne_iff_ne.mpr hlen, Bool.and_self, if_true]

/-- Settles O60: the step is the collaborator's move, which each of the three conditions refuses. -/
theorem loaderMovesThatBreakADutyAreRefused :
    Obligations.LoaderMovesThatBreakADutyAreRefused := by
  intro s rest
  refine ⟨fun o b hin => ?_, fun size hin hb hlen => ?_⟩
  · rw [step_cons hin, handleInput]
    exact ⟨fun hb ho => fillByte_below_len b hb ho, fun hduty ho => fillByte_outside b hduty ho⟩
  · rw [step_cons hin, handleInput]
    exact takeBuffer_busy size hb hlen

end Sys2Proof.Machine
end

section
/-!
PROOFS. The header decoder and encoder undo each other (30 R80, R82, R89): which row each word decodes
to, the class rows through the extractor, and the reject rows by the fields of their words.
-/

namespace Sys2Proof

/-! ### Which row a word decodes to -/

/-- The header decoder takes the checks of 40 R111 in their order, and each row's word is taken apart
at the fields that its row names. -/
theorem decodeHdr_cases (w : Word) :
    (w.extractLsb' 21 11 ≠ 0x7FF#11 ∧ decodeHdr w = .hdrSyncRequired w) ∨
    (w.extractLsb' 21 11 = 0x7FF#11 ∧ w.extractLsb' 19 2 = 0b01#2 ∧
      decodeHdr w = .hdrRsvVersion (w.extractLsb' 0 19)) ∨
    (w.extractLsb' 21 11 = 0x7FF#11 ∧ w.extractLsb' 19 2 ≠ 0b01#2 ∧ w.extractLsb' 17 2 = 0b00#2 ∧
      decodeHdr w = .hdrRsvLayer (w.extractLsb' 19 2) (w.extractLsb' 0 17)) ∨
    (w.extractLsb' 21 11 = 0x7FF#11 ∧ w.extractLsb' 19 2 ≠ 0b01#2 ∧ w.extractLsb' 17 2 ≠ 0b00#2 ∧
      w.extractLsb' 12 4 = 0b1111#4 ∧
      decodeHdr w = .hdrBadBitrateIndex (w.extractLsb' 19 2) (w.extractLsb' 17 2)
        (w.extractLsb' 16 1) (w.extractLsb' 0 12)) ∨
    (w.extractLsb' 21 11 = 0x7FF#11 ∧ w.extractLsb' 19 2 ≠ 0b01#2 ∧ w.extractLsb' 17 2 ≠ 0b00#2 ∧
      w.extractLsb' 12 4 ≠ 0b1111#4 ∧ w.extractLsb' 10 2 = 0b11#2 ∧
      decodeHdr w = .hdrRsvSrateIndex (w.extractLsb' 19 2) (w.extractLsb' 17 2)
        (w.extractLsb' 16 1) (w.extractLsb' 12 4) (w.extractLsb' 0 10)) ∨
    (w.extractLsb' 21 11 = 0x7FF#11 ∧ w.extractLsb' 19 2 ≠ 0b01#2 ∧ w.extractLsb' 17 2 ≠ 0b00#2 ∧
      w.extractLsb' 12 4 ≠ 0b1111#4 ∧ w.extractLsb' 10 2 ≠ 0b11#2 ∧
      decodeHdr w = classOf (w.extractLsb' 19 2) (w.extractLsb' 17 2) (extract w).below) := by
  unfold decodeHdr
  dsimp only [extract]
  split_ifs with hsync hver hlay hbri hsri
  · exact .inl ⟨hsync, rfl⟩
  all_goals have hsync := not_not.mp hsync
  · exact .inr (.inl ⟨hsync, hver, rfl⟩)
  · exact .inr (.inr (.inl ⟨hsync, hver, hlay, rfl⟩))
  · exact .inr (.inr (.inr (.inl ⟨hsync, hver, hlay, hbri, rfl⟩)))
  · exact .inr (.inr (.inr (.inr (.inl ⟨hsync, hver, hlay, hbri, hsri, rfl⟩))))
  · exact .inr (.inr (.inr (.inr (.inr ⟨hsync, hver, hlay, hbri, hsri, rfl⟩))))

/-! ### The class rows -/

/-- A VER other than '01' and a LAY other than '00' select one of nine class rows (30 R84). -/
theorem classOf_cases {ver lay : BitVec 2} (hver : ver ≠ 0b01#2) (hlay : lay ≠ 0b00#2) :
    (ver = 0b11#2 ∨ ver = 0b10#2 ∨ ver = 0b00#2) ∧ (lay = 0b11#2 ∨ lay = 0b10#2 ∨ lay = 0b01#2) := by
  revert ver lay; decide

/-- The word of the class row that VER and LAY select is made of VER, LAY and the row's fields. -/
theorem encode_classOf {ver lay : BitVec 2} (hver : ver ≠ 0b01#2) (hlay : lay ≠ 0b00#2)
    (f : HdrFields) : encode (classOf ver lay f) = classWord ver lay f := by
  obtain ⟨rfl | rfl | rfl, rfl | rfl | rfl⟩ := classOf_cases hver hlay <;> rfl

@[simp] theorem classOf_wf (ver lay : BitVec 2) (f : HdrFields) : (classOf ver lay f).wf = f.wf := by
  unfold classOf
  split_ifs <;> rfl

@[simp] theorem classOf_isClass (ver lay : BitVec 2) (f : HdrFields) :
    (classOf ver lay f).isClass = true := by
  unfold classOf
  split_ifs <;> rfl

/-- A class row's fields are well formed exactly when neither index is a reserved one (30 R87). -/
theorem HdrFields.wf_iff (f : HdrFields) : f.wf = true ↔ f.bri ≠ 0b1111#4 ∧ f.sri ≠ 0b11#2 := by
  simp only [HdrFields.wf, Bool.and_eq_true, bne_iff_ne]

/-- A word with the sync is the class word of its own VER, LAY and fields below. -/
theorem classWord_extract {w : Word} (hsync : w.extractLsb' 21 11 = 0x7FF#11) :
    classWord (w.extractLsb' 19 2) (w.extractLsb' 17 2) (extract w).below = w := by
  calc classWord (w.extractLsb' 19 2) (w.extractLsb' 17 2) (extract w).below
      = headerWord (extract w) := by rw [classWord, ← hsync]; rfl
    _ = w := headerWord_extract w

/-- The decoder gives a class word's fields back. -/
theorem decodeHdr_classWord {ver lay : BitVec 2} {f : HdrFields} (hver : ver ≠ 0b01#2)
    (hlay : lay ≠ 0b00#2) (hwf : f.wf = true) :
    decodeHdr (classWord ver lay f) = classOf ver lay f := by
  obtain ⟨hbri, hsri⟩ := f.wf_iff.mp hwf
  unfold decodeHdr classWord
  simp only [extract_headerWord, hver, hlay, hbri, hsri, ne_eq, not_true, if_false]
  rfl

/-! ### The reject rows

Which bits of a reject row's word hold which field, and the row that the decoder reads from them. -/

/-- The decoder gives an HDR.RSV_VERSION word's bits back. -/
theorem decodeHdr_encode_rsvVersion (rest : BitVec 19) :
    decodeHdr (encode (.hdrRsvVersion rest)) = .hdrRsvVersion rest := by
  generalize hw : encode (.hdrRsvVersion rest) = w
  have hfields : w.extractLsb' 21 11 = 0x7FF#11 ∧ w.extractLsb' 19 2 = 0b01#2 ∧
      w.extractLsb' 0 19 = rest := by
    subst hw
    unfold encode
    generalize 0x7FF#11 = sync, 0b01#2 = ver
    refine ⟨?_, ?_, ?_⟩ <;> grind
  obtain ⟨hsync, hver, hrest⟩ := hfields
  simp only [decodeHdr, extract, hsync, hver, hrest, ne_eq, not_true, if_false, if_true]

/-- The decoder gives an HDR.RSV_LAYER word's bits back. -/
theorem decodeHdr_encode_rsvLayer {ver : BitVec 2} (hv : ver ≠ 0b01#2) (rest : BitVec 17) :
    decodeHdr (encode (.hdrRsvLayer ver rest)) = .hdrRsvLayer ver rest := by
  generalize hw : encode (.hdrRsvLayer ver rest) = w
  have hfields : w.extractLsb' 21 11 = 0x7FF#11 ∧ w.extractLsb' 19 2 = ver ∧
      w.extractLsb' 17 2 = 0b00#2 ∧ w.extractLsb' 0 17 = rest := by
    subst hw
    dsimp only [encode]
    refine ⟨?_, ?_, ?_, ?_⟩ <;> grind
  obtain ⟨hsync, hver, hlay, hrest⟩ := hfields
  simp only [decodeHdr, extract, hsync, hver, hlay, hrest, hv, ne_eq, not_true, if_false, if_true]

/-- The decoder gives an HDR.BAD_BITRATE_INDEX word's bits back. -/
theorem decodeHdr_encode_badBitrateIndex {ver lay : BitVec 2} (hv : ver ≠ 0b01#2)
    (hl : lay ≠ 0b00#2) (prot : BitVec 1) (rest : BitVec 12) :
    decodeHdr (encode (.hdrBadBitrateIndex ver lay prot rest)) =
      .hdrBadBitrateIndex ver lay prot rest := by
  generalize hw : encode (.hdrBadBitrateIndex ver lay prot rest) = w
  have hfields : w.extractLsb' 21 11 = 0x7FF#11 ∧ w.extractLsb' 19 2 = ver ∧
      w.extractLsb' 17 2 = lay ∧ w.extractLsb' 16 1 = prot ∧ w.extractLsb' 12 4 = 0b1111#4 ∧
      w.extractLsb' 0 12 = rest := by
    subst hw
    dsimp only [encode]
    refine ⟨?_, ?_, ?_, ?_, ?_, ?_⟩ <;> grind
  obtain ⟨hsync, hver, hlay, hprot, hbri, hrest⟩ := hfields
  simp only [decodeHdr, extract, hsync, hver, hlay, hprot, hbri, hrest, hv, hl, ne_eq, not_true,
    if_false, if_true]

/-- The decoder gives an HDR.RSV_SRATE_INDEX word's bits back. -/
theorem decodeHdr_encode_rsvSrateIndex {ver lay : BitVec 2} {bri : BitVec 4} (hv : ver ≠ 0b01#2)
    (hl : lay ≠ 0b00#2) (hb : bri ≠ 0b1111#4) (prot : BitVec 1) (rest : BitVec 10) :
    decodeHdr (encode (.hdrRsvSrateIndex ver lay prot bri rest)) =
      .hdrRsvSrateIndex ver lay prot bri rest := by
  generalize hw : encode (.hdrRsvSrateIndex ver lay prot bri rest) = w
  have hfields : w.extractLsb' 21 11 = 0x7FF#11 ∧ w.extractLsb' 19 2 = ver ∧
      w.extractLsb' 17 2 = lay ∧ w.extractLsb' 16 1 = prot ∧ w.extractLsb' 12 4 = bri ∧
      w.extractLsb' 10 2 = 0b11#2 ∧ w.extractLsb' 0 10 = rest := by
    subst hw
    dsimp only [encode]
    refine ⟨?_, ?_, ?_, ?_, ?_, ?_, ?_⟩ <;> grind
  obtain ⟨hsync, hver, hlay, hprot, hbri, hsri, hrest⟩ := hfields
  simp only [decodeHdr, extract, hsync, hver, hlay, hprot, hbri, hsri, hrest, hv, hl, hb, ne_eq,
    not_true, if_false, if_true]

/-! ### Both round trips -/

/-- Settles O4: a class row by the extractor, a reject row by its word's fields. -/
theorem headerInstructionsRoundTrip : Obligations.HeaderInstructionsRoundTrip := by
  intro i hheader hwf
  cases i with
  | parse | locate | advance | tagsize => cases hheader
  | hdrV1L1 f | hdrV1L2 f | hdrV1L3 f | hdrV2L1 f | hdrV2L2 f | hdrV2L3 f | hdrV25L1 f | hdrV25L2 f
  | hdrV25L3 f => exact decodeHdr_classWord (by decide) (by decide) hwf
  | hdrSyncRequired w => exact if_pos (bne_iff_ne.mp hwf)
  | hdrRsvVersion rest => exact decodeHdr_encode_rsvVersion rest
  | hdrRsvLayer ver rest => exact decodeHdr_encode_rsvLayer (bne_iff_ne.mp hwf) rest
  | hdrBadBitrateIndex ver lay prot rest =>
    simp only [Instr.wf, Bool.and_eq_true, bne_iff_ne] at hwf
    obtain ⟨hver, hlay⟩ := hwf
    exact decodeHdr_encode_badBitrateIndex hver hlay prot rest
  | hdrRsvSrateIndex ver lay prot bri rest =>
    simp only [Instr.wf, Bool.and_eq_true, bne_iff_ne] at hwf
    obtain ⟨⟨hver, hlay⟩, hbri⟩ := hwf
    exact decodeHdr_encode_rsvSrateIndex hver hlay hbri prot rest

/-- The decoder drops no bit of a header word. -/
theorem encode_decodeHdr (w : Word) : encode (decodeHdr w) = w := by
  rcases decodeHdr_cases w with ⟨-, hi⟩ | ⟨hsync, hver, hi⟩ | ⟨hsync, -, hlay, hi⟩ |
    ⟨hsync, -, -, hbri, hi⟩ | ⟨hsync, -, -, -, hsri, hi⟩ | ⟨hsync, hver, hlay, -, -, hi⟩ <;> rw [hi]
  on_goal 1 => rfl
  on_goal 5 => rw [encode_classOf hver hlay, classWord_extract hsync]
  -- The word of a reject row is its fields side by side, which join to the whole word.
  on_goal 1 => rw [encode, ← hsync, ← hver]
  on_goal 2 => rw [encode, ← hsync, ← hlay]
  on_goal 3 => rw [encode, ← hsync, ← hbri]
  on_goal 4 => rw [encode, ← hsync, ← hsri]
  all_goals
    repeat rw [BitVec.extractLsb'_append_extractLsb'_eq_extractLsb' (by decide)]
    exact BitVec.extractLsb'_eq_self

/-- The decoder reads a word in one way only: the row it answers is well formed. -/
theorem decodeHdr_wf (w : Word) : (decodeHdr w).wf = true := by
  rcases decodeHdr_cases w with ⟨hsync, hi⟩ | ⟨-, -, hi⟩ | ⟨-, hver, -, hi⟩ | ⟨-, hver, hlay, -, hi⟩ |
    ⟨-, hver, hlay, hbri, -, hi⟩ | ⟨-, -, -, hbri, hsri, hi⟩ <;> rw [hi]
  · exact bne_iff_ne.mpr hsync
  · rfl
  · exact bne_iff_ne.mpr hver
  · simp only [Instr.wf, bne_iff_ne.mpr hver, bne_iff_ne.mpr hlay, Bool.and_self]
  · simp only [Instr.wf, bne_iff_ne.mpr hver, bne_iff_ne.mpr hlay, bne_iff_ne.mpr hbri, Bool.and_self]
  · rw [classOf_wf, HdrFields.wf_iff]
    exact ⟨hbri, hsri⟩

/-- Settles O5: the row of each word keeps its bits, is well formed and is a header row. -/
theorem headerWordsRoundTrip : Obligations.HeaderWordsRoundTrip := fun w =>
  ⟨encode_decodeHdr w, decodeHdr_wf w, Machine.decodeHdr_isCommand w⟩

end Sys2Proof
end

section
/-!
PROOFS. The command decoder and encoder undo each other (30 R95, R96).
-/

namespace Sys2Proof

/-- The four OP values of 30 R95, each with its command and the ignored bits, and the reserved ones. -/
theorem decodeCmd_append (ign : BitVec 29) (op : BitVec 3) :
    decodeCmd (ign ++ op) =
      if op = 1#3 then .ok (.parse ign) else if op = 2#3 then .ok (.locate ign)
      else if op = 3#3 then .ok (.advance ign) else if op = 4#3 then .ok (.tagsize ign)
      else .error (.reservedOp op) := by
  have hign : (ign ++ op : Word).extractLsb' 3 29 = ign := BitVec.extractLsb'_append_eq_left
  have hop : (ign ++ op : Word).extractLsb' 0 3 = op := BitVec.extractLsb'_append_eq_right
  unfold decodeCmd
  dsimp only
  rw [hign, hop]

/-- Every word is its bits 31:3 above its OP. -/
theorem exists_eq_append_op (w : Word) : ∃ (ign : BitVec 29) (op : BitVec 3), w = ign ++ op :=
  ⟨w.extractLsb' 3 29, w.extractLsb' 0 3,
    (BitVec.extractLsb'_append_extractLsb' (len := 3) (w := 29) (x := w)).symm⟩

/-- Settles O2: a command word is its ignored bits above the OP of its command. -/
theorem commandWordsRoundTrip : Obligations.CommandWordsRoundTrip := by
  refine ⟨fun i hi => ?_, fun w i hi => ⟨Machine.decodeCmd_isCommand hi, ?_⟩⟩
  · cases i with
    | parse ign | locate ign | advance ign | tagsize ign => exact decodeCmd_append ign _
    | hdrV1L1 | hdrV1L2 | hdrV1L3 | hdrV2L1 | hdrV2L2 | hdrV2L3 | hdrV25L1 | hdrV25L2 | hdrV25L3
    | hdrSyncRequired | hdrRsvVersion | hdrRsvLayer | hdrBadBitrateIndex | hdrRsvSrateIndex =>
      cases hi
  · obtain ⟨ign, op, rfl⟩ := exists_eq_append_op w
    rw [decodeCmd_append] at hi
    split_ifs at hi with h1 h2 h3 h4 <;> cases hi
    · rw [h1]; rfl
    · rw [h2]; rfl
    · rw [h3]; rfl
    · rw [h4]; rfl

/-- Settles O3: the OP, which alone decides, is the word modulo 8. -/
theorem onlyReservedOpsAreNoCommand : Obligations.OnlyReservedOpsAreNoCommand := by
  intro w
  obtain ⟨ign, op, rfl⟩ := exists_eq_append_op w
  have hmod : (ign ++ op : Word).toNat % 8 = op.toNat := by
    have h := congrArg BitVec.toNat (BitVec.extractLsb'_append_eq_right (a := ign) (b := op))
    rwa [BitVec.extractLsb'_toNat] at h
  have hop : (∃ e, decodeCmd (ign ++ op) = .error e) ↔ op ≠ 1#3 ∧ op ≠ 2#3 ∧ op ≠ 3#3 ∧ op ≠ 4#3 := by
    rw [decodeCmd_append]
    split_ifs <;> simp [*]
  rw [hop, hmod]
  clear hop hmod
  revert op
  decide

end Sys2Proof
end

section
/-!
PROOFS. `WordOK` (30 R87) is what both the validator of 40 R141 and the row decoder test, and a word on
a reject row of the table (30 R89) fails it.
-/

namespace Sys2Proof.Machine

/-- `WordOK` is the five conditions of 30 R87. -/
theorem wordOK_iff (w : Word) :
    wordOK w = true ↔
      w.extractLsb' 21 11 = 0x7FF#11 ∧ w.extractLsb' 19 2 ≠ 0b01#2 ∧ w.extractLsb' 17 2 ≠ 0b00#2 ∧
        w.extractLsb' 12 4 ≠ 0b1111#4 ∧ w.extractLsb' 10 2 ≠ 0b11#2 := by
  simp only [wordOK, Bool.and_eq_true, beq_iff_eq, bne_iff_ne, and_assoc]

/-- The validator accepts a word exactly when `WordOK` holds of it: each of its decoders rejects the one
code that 30 R87 excludes. -/
theorem exists_decodeHeader_valid_iff (t : BitrateLut) (w o : Word) :
    (∃ h, decodeHeader t w o = .valid h) ↔ wordOK w = true := by
  simp only [wordOK_iff, decodeHeader_eq_valid_iff, syncOK, beq_iff_eq]
  constructor
  · rintro ⟨-, ver, lay, br, sr, hsync, hver, hlay, hbr, hsr, -⟩
    exact ⟨hsync, (verDec_isSome _).mp ⟨ver, hver⟩, (layDec_isSome _).mp ⟨lay, hlay⟩,
      (bitrateOf_isSome t ver lay _).mp ⟨br, hbr⟩, (srateOf_isSome ver _).mp ⟨sr, hsr⟩⟩
  · rintro ⟨hsync, hver, hlay, hbri, hsri⟩
    obtain ⟨ver, hver⟩ := (verDec_isSome _).mpr hver
    obtain ⟨lay, hlay⟩ := (layDec_isSome _).mpr hlay
    obtain ⟨br, hbr⟩ := (bitrateOf_isSome t ver lay _).mpr hbri
    obtain ⟨sr, hsr⟩ := (srateOf_isSome ver _).mpr hsri
    exact ⟨_, ver, lay, br, sr, hsync, hver, hlay, hbr, hsr, rfl⟩

/-- The validator rejects every other word. -/
theorem decodeHeader_invalid {w : Word} (h : wordOK w = false) (t : BitrateLut) (o : Word) :
    decodeHeader t w o = .invalid := by
  cases hd : decodeHeader t w o with
  | invalid => rfl
  | valid r =>
    rw [(exists_decodeHeader_valid_iff t w o).mp ⟨r, hd⟩] at h
    cases h

/-- Settles O7: `WordOK` spelt out, and what the validator makes of it. -/
theorem validExactlyWhenTheFiveConditionsHold :
    Obligations.ValidExactlyWhenTheFiveConditionsHold := fun t w o =>
  ⟨wordOK_iff w, exists_decodeHeader_valid_iff t w o, fun h => decodeHeader_invalid h t o⟩

/-- The row decoder gives a class row exactly to the words of 30 R87. -/
theorem decodeHdr_isClass_iff (w : Word) : (decodeHdr w).isClass = true ↔ wordOK w = true := by
  rw [wordOK_iff]
  rcases decodeHdr_cases w with ⟨hsync, hi⟩ | ⟨-, hver, hi⟩ | ⟨-, -, hlay, hi⟩ |
    ⟨-, -, -, hbri, hi⟩ | ⟨-, -, -, -, hsri, hi⟩ | ⟨hsync, hver, hlay, hbri, hsri, hi⟩ <;> rw [hi]
  · exact ⟨nofun, fun h => absurd h.1 hsync⟩
  · simp [Instr.isClass, hver]
  · simp [Instr.isClass, hlay]
  · simp [Instr.isClass, hbri]
  · simp [Instr.isClass, hsri]
  · exact ⟨fun _ => ⟨hsync, hver, hlay, hbri, hsri⟩, fun _ => classOf_isClass _ _ _⟩

/-- The word of every well-formed instruction matches its row of the table. -/
theorem rowHolds_encode (i : Instr) : Laws.EncodeMatchesRow.Statement i := by
  cases i with
  | parse ign => exact Laws.EncodeMatchesRow.parse ign
  | locate ign => exact Laws.EncodeMatchesRow.locate ign
  | advance ign => exact Laws.EncodeMatchesRow.advance ign
  | tagsize ign => exact Laws.EncodeMatchesRow.tagsize ign
  | hdrV1L1 f => exact Laws.EncodeMatchesRow.hdrV1L1 f
  | hdrV1L2 f => exact Laws.EncodeMatchesRow.hdrV1L2 f
  | hdrV1L3 f => exact Laws.EncodeMatchesRow.hdrV1L3 f
  | hdrV2L1 f => exact Laws.EncodeMatchesRow.hdrV2L1 f
  | hdrV2L2 f => exact Laws.EncodeMatchesRow.hdrV2L2 f
  | hdrV2L3 f => exact Laws.EncodeMatchesRow.hdrV2L3 f
  | hdrV25L1 f => exact Laws.EncodeMatchesRow.hdrV25L1 f
  | hdrV25L2 f => exact Laws.EncodeMatchesRow.hdrV25L2 f
  | hdrV25L3 f => exact Laws.EncodeMatchesRow.hdrV25L3 f
  | hdrSyncRequired w => exact Laws.EncodeMatchesRow.hdrSyncRequired w
  | hdrRsvVersion rest => exact Laws.EncodeMatchesRow.hdrRsvVersion rest
  | hdrRsvLayer ver rest => exact Laws.EncodeMatchesRow.hdrRsvLayer ver rest
  | hdrBadBitrateIndex ver lay prot rest =>
    exact Laws.EncodeMatchesRow.hdrBadBitrateIndex ver lay prot rest
  | hdrRsvSrateIndex ver lay prot bri rest =>
    exact Laws.EncodeMatchesRow.hdrRsvSrateIndex ver lay prot bri rest

/-- The row that a header word decodes to holds of the word. -/
theorem rowHolds_decodeHdr (w : Word) : rowHolds (decodeHdr w) w = true := by
  have h := rowHolds_encode (decodeHdr w) (decodeHdr_wf w)
  rwa [encode_decodeHdr] at h

/-- A field that a row's mask covers holds the code of the row's match. -/
theorem extractLsb'_of_masked {w mask code : Word} (h : w &&& mask = code) (start len : Nat)
    (hmask : mask.extractLsb' start len = BitVec.allOnes len) :
    w.extractLsb' start len = code.extractLsb' start len := by
  rw [← h, BitVec.extractLsb'_and, hmask, BitVec.and_allOnes]

/-- A word on one of the four reject rows is not acceptable (30 R89, R90). -/
theorem wordOK_of_rejectRow {w : Word}
    (h : w &&& 0xFFF80000#32 = 0xFFE80000#32 ∨ w &&& 0xFFE60000#32 = 0xFFE00000#32 ∨
      w &&& 0xFFE0F000#32 = 0xFFE0F000#32 ∨ w &&& 0xFFE00C00#32 = 0xFFE00C00#32) :
    wordOK w = false := by
  rw [← Bool.not_eq_true, wordOK_iff]
  rintro ⟨-, hver, hlay, hbri, hsri⟩
  rcases h with h | h | h | h
  · exact hver (extractLsb'_of_masked h 19 2 (by decide))
  · exact hlay (extractLsb'_of_masked h 17 2 (by decide))
  · exact hbri (extractLsb'_of_masked h 12 4 (by decide))
  · exact hsri (extractLsb'_of_masked h 10 2 (by decide))

/-- Settles O6: a word on a reject row fails `WordOK`, which both decoders test. -/
theorem decodedRowHoldsAndRejectRowsWin : Obligations.DecodedRowHoldsAndRejectRowsWin := by
  refine fun w => ⟨rowHolds_decodeHdr w, fun hreject => ?_⟩
  have hok := wordOK_of_rejectRow hreject
  refine ⟨?_, decodeHeader_invalid hok⟩
  rw [← Bool.not_eq_true, decodeHdr_isClass_iff, hok]
  exact Bool.false_ne_true

end Sys2Proof.Machine
end

section
/-!
PROOFS. Host programs (30 R98, R99): the expansions, one poll of WAIT, and the poll loop that waits for
a scan or a TAGSIZE. The scan itself is one induction over the offsets left to examine (41 R171, R172).
-/

namespace Sys2Proof.Machine

/-- Settles O38: each expansion, with the offsets of 10 R20. -/
theorem pseudoInstructionsExpandExactly : Obligations.PseudoInstructionsExpandExactly :=
  fun _ _ => ⟨rfl, rfl, rfl, rfl, rfl, rfl⟩

/-! ### One poll -/

/-- While BUSY = 1 a poll reads STATUS and comes again after a turn of the FSM (log 2). -/
theorem step_wait_busy {s : State} {rest : List Input} (h : s.inputs = .wait :: rest)
    (hbusy : s.fsm ≠ .idle) :
    step s = .next { s with inputs := .fsm :: .wait :: rest, rdata := s.statusWord } := by
  rw [step_cons h, handleInput]
  exact if_pos ((busy_iff s).mpr hbusy)

/-- When BUSY = 0 a poll reads STATUS and ends. -/
theorem step_wait_idle {s : State} {rest : List Input} (h : s.inputs = .wait :: rest)
    (hidle : s.fsm = .idle) :
    step s = .next { s with inputs := rest, rdata := s.statusWord } := by
  rw [step_cons h, handleInput]
  exact if_neg fun hbusy => (busy_iff s).mp hbusy hidle

/-- Settles O37: the two branches of a poll. -/
theorem pollingEndsExactlyWhenNotBusy : Obligations.PollingEndsExactlyWhenNotBusy := fun _ _ h =>
  ⟨step_wait_busy h, step_wait_idle h⟩

/-- A poll while BUSY = 1, and the turn of the FSM behind it: two steps. -/
theorem run_poll_turn {s t : State} {rest : List Input} (k : Nat) (h : s.inputs = .wait :: rest)
    (hbusy : s.fsm ≠ .idle) (hfsm : fsmStep { s with rdata := s.statusWord } = .next t) :
    Host.Core.run Sys2Proof.core (k + 2) s = Host.Core.run Sys2Proof.core k t := by
  have hturn : step { s with inputs := .fsm :: .wait :: rest, rdata := s.statusWord } = .next t := by
    rw [step_cons rfl, handleInput, ← hfsm, ← h]
  rw [run_succ (k + 1) (step_wait_busy h hbusy), run_succ k hturn]

/-! ### A turn of the FSM within a scan -/

/-- In SCAN, within the limit and the latched length, the FSM executes the row of the word at its
cursor (41 R171). -/
theorem fsmStep_fetched {s : State} {w : Word} (hf : s.fsm = .scan) (hlim : s.cur.toNat ≤ s.lim.toNat)
    (hlen : s.cur.toNat + 4 ≤ s.len.toNat) (hw : read32BE s s.cur.toNat = some w) :
    fsmStep s = exec (decodeHdr w) s := by
  have hread : (pastLimit s || tooShort s s.cur.toNat) = false := by
    simp only [pastLimit, tooShort, Nat.not_lt.mpr hlim, Nat.not_lt.mpr hlen, decide_false,
      Bool.or_self]
  simp only [fsmStep, hf, hread, Bool.false_eq_true, if_false, hw]

/-- In SCAN the FSM takes the scan step with the header value of the candidate at its cursor, whether
it reads the candidate's word or not (41 R171). -/
theorem fsmStep_scan {s : State} {h : Header} (hf : s.fsm = .scan)
    (hh : headerAt s s.cur.toNat = some h) : fsmStep s = .next (scanStep h s) := by
  by_cases hlim : s.lim.toNat < s.cur.toNat
  · have hpast : pastLimit s = true := decide_eq_true hlim
    simp only [fsmStep, hf, scanStep, hpast, Bool.true_or, if_true]
  unfold headerAt at hh
  by_cases hlen : s.len.toNat < s.cur.toNat + 4
  · have hshort : tooShort s s.cur.toNat = true := decide_eq_true hlen
    rw [if_pos hshort] at hh
    cases hh
    simp only [fsmStep, hf, hshort, Bool.or_true, if_true]
  · have hlong : ¬tooShort s s.cur.toNat = true := fun hshort => hlen (of_decide_eq_true hshort)
    rw [if_neg hlong] at hh
    cases hw : read32BE s s.cur.toNat with
    | none => rw [hw] at hh; cases hh
    | some w =>
      rw [hw] at hh
      cases hh
      rw [fsmStep_fetched hf (Nat.not_lt.mp hlim) (Nat.not_lt.mp hlen) hw,
        exec_header s (decodeHdr_isCommand w), encode_decodeHdr, examine_scan w hf]

/-! ### What a scan returns (41 R173) -/

/-- A scan whose origin is past its limit returns `INVALID`. -/
theorem isScanResult_past (s : State) {c0 lim : Nat} (h : lim < c0) :
    IsScanResult s c0 lim .invalid :=
  .inr ⟨rfl, fun _ h0 h1 => absurd (Nat.le_trans h0 h1) (Nat.not_le.mpr h)⟩

/-- A scan whose first candidate is valid returns it. -/
theorem isScanResult_found {s : State} {c0 lim : Nat} {r : HeaderRecord} (hlim : c0 ≤ lim)
    (h : headerAt s c0 = some (.valid r)) : IsScanResult s c0 lim (.valid r) :=
  .inl ⟨c0, r, Nat.le_refl c0, hlim, h, rfl, fun _ h0 h1 => absurd h1 (Nat.not_lt.mpr h0)⟩

/-- A scan whose first candidate is invalid returns what the scan from the next offset returns. -/
theorem isScanResult_next {s : State} {c0 lim : Nat} {h : Header}
    (hinvalid : headerAt s c0 = some .invalid) (hnext : IsScanResult s (c0 + 1) lim h) :
    IsScanResult s c0 lim h := by
  have hfrom : ∀ o', c0 ≤ o' → o' = c0 ∨ c0 + 1 ≤ o' := fun o' h0 => by omega
  rcases hnext with ⟨o, r, ho, hlim, hvalid, rfl, hbelow⟩ | ⟨rfl, hall⟩
  · refine .inl ⟨o, r, Nat.le_of_succ_le ho, hlim, hvalid, rfl, fun o' h0 h1 => ?_⟩
    rcases hfrom o' h0 with rfl | h0
    · exact hinvalid
    · exact hbelow o' h0 h1
  · refine .inr ⟨rfl, fun o' h0 h1 => ?_⟩
    rcases hfrom o' h0 with rfl | h0
    · exact hinvalid
    · exact hall o' h0 h1

/-- What a scan returns depends on the candidates' header values only. -/
theorem IsScanResult.congr {s t : State} {c0 lim : Nat} {h : Header}
    (hat : ∀ o, headerAt t o = headerAt s o) (hres : IsScanResult t c0 lim h) :
    IsScanResult s c0 lim h := by
  simpa only [IsScanResult, hat] using hres

/-! ### The poll loop -/

/-- A poll whose turn of the FSM completes the command is followed by the last one: three steps. -/
theorem run_wait_complete {s u : State} (hin : s.inputs = [.wait]) (hbusy : s.fsm ≠ .idle)
    (hfsm : fsmStep { s with rdata := s.statusWord } = .next u) (hidle : u.fsm = .idle) :
    Host.Core.run Sys2Proof.core 3 s = .next { u with inputs := [], rdata := u.statusWord } ∧
      u.statusWord.getLsbD 0 = false := by
  have hinputs : u.inputs = [.wait] := by
    obtain ⟨-, -, -, -, -, -, -, -, -, -, hinputs, -⟩ := fsmStep_frame hfsm
    exact hinputs.trans hin
  refine ⟨(run_poll_turn 1 hin hbusy hfsm).trans (run_succ 0 (step_wait_idle hinputs hidle)), ?_⟩
  rw [← Bool.not_eq_true, (statusBitsAreTheFlags u).1, not_not]
  exact hidle

/-- The poll loop during a scan, by recursion over the offsets left to examine: it ends with the
scan's result in the result header. -/
theorem run_wait_scan (s : State) (hin : s.inputs = [.wait]) (hscan : s.fsm = .scan)
    (hlen : s.len.toNat ≤ s.bufSize.toNat) :
    ∃ (k : Nat) (h : Header) (t : State),
      IsScanResult s s.cur.toNat s.lim.toNat h ∧
      Host.Core.run Sys2Proof.core k s = .next t ∧ t.inputs = [] ∧ t.fsm = .idle ∧
      t.done = true ∧ t.hdr = resultImage h ∧ t.rdata.getLsbD 0 = false := by
  have hbusy : s.fsm ≠ .idle := by rw [hscan]; exact nofun
  obtain ⟨h, hh⟩ := headerAt_isSome hlen s.cur.toNat
  have hfsm : fsmStep { s with rdata := s.statusWord } =
    .next (scanStep h { s with rdata := s.statusWord }) := fsmStep_scan hscan hh
  rcases scanStep_cases h { s with rdata := s.statusWord } with
    ⟨hlim, he⟩ | ⟨hlim, r, rfl, he⟩ | ⟨hlim, rfl, he⟩ <;> rw [he] at hfsm
  · obtain ⟨hrun, hstatus⟩ := run_wait_complete hin hbusy hfsm rfl
    exact ⟨3, .invalid, _, isScanResult_past s hlim, hrun, rfl, rfl, rfl, rfl, hstatus⟩
  · obtain ⟨hrun, hstatus⟩ := run_wait_complete hin hbusy hfsm rfl
    exact ⟨3, .valid r, _, isScanResult_found hlim hh, hrun, rfl, rfl, rfl, rfl, hstatus⟩
  · have hcur : (s.cur + 1).toNat = s.cur.toNat + 1 := cursor_succ hlim
    obtain ⟨k, h, t, hres, hrun, hend⟩ :=
      run_wait_scan { s with cur := s.cur + 1, rdata := s.statusWord } hin hscan hlen
    refine ⟨k + 2, h, t, isScanResult_next hh ?_, ?_, hend⟩
    · rw [← hcur]
      exact hres.congr (headerAt_congr rfl rfl fun _ _ => rfl)
    · exact (run_poll_turn k hin hbusy hfsm).trans hrun
termination_by s.lim.toNat + 1 - s.cur.toNat
decreasing_by
  simp only [hcur]
  exact Nat.sub_lt_sub_left (Nat.lt_succ_of_le hlim) (Nat.lt_succ_self _)

/-- Settles O57: the loop during a scan, and the one poll and turn that a TAGSIZE takes. -/
theorem waitEndsWithTheCommandsResult : Obligations.WaitEndsWithTheCommandsResult := by
  intro s hin hcovers
  have hlen : s.len.toNat ≤ s.bufSize.toNat := of_decide_eq_true hcovers
  refine ⟨fun hscan => run_wait_scan s hin hscan hlen, fun htag => ?_⟩
  obtain ⟨v, hv⟩ := tagSizeOf_isSome hlen
  have hbusy : s.fsm ≠ .idle := by rw [htag]; exact nofun
  have hfsm : fsmStep { s with rdata := s.statusWord } =
    .next (completeTag v { s with rdata := s.statusWord }) := fsmStep_tag htag hv
  obtain ⟨hrun, hstatus⟩ := run_wait_complete hin hbusy hfsm rfl
  exact ⟨3, v, _, hv, hrun, rfl, rfl, rfl, rfl, rfl, hstatus⟩

end Sys2Proof.Machine
end

section
/-!
PROOFS. Words in their places: fixed words and their rows, and a word placed for the next step by
`withFetchWord` (log 20), which that step takes up.
-/

namespace Sys2Proof.Machine

/-- Settles O1: the decoders evaluate on each word. -/
theorem specWordsDecodeToTheirRows : Obligations.SpecWordsDecodeToTheirRows :=
  ⟨rfl, rfl, rfl, rfl, rfl, rfl, rfl, rfl, rfl, rfl⟩

/-! ### Table words (log 4) -/

/-- A word on the command port is decoded as a command. -/
theorem decodeCmd_of_tableWord {w : Nat} {i : Instr}
    (hport : portOfTableWord (tableWord 32 w) = .cmd) (h : decodeTableWord 32 w = some i) :
    decodeCmd (tableWord 32 w) = .ok i := by
  simp only [decodeTableWord, Nat.le_refl, if_true, hport, decodeBytes, wordOfBytes_beBytes] at h
  cases hd : decodeCmd (tableWord 32 w) with
  | ok j => rw [hd] at h; cases h; rfl
  | error e => rw [hd] at h; cases h

/-- A word on the buffer port is decoded as a header word. -/
theorem decodeHdr_of_tableWord {w : Nat} {i : Instr}
    (hport : portOfTableWord (tableWord 32 w) = .buffer) (h : decodeTableWord 32 w = some i) :
    decodeHdr (tableWord 32 w) = i := by
  simpa only [decodeTableWord, Nat.le_refl, if_true, hport, decodeBytes, wordOfBytes_beBytes,
    Option.some.injEq] using h

/-! ### The candidate that `placeCandidate` prepares -/

/-- The four bytes of a stored word read back in their big-endian places. -/
theorem Memory.read_writeWord (m : Memory) (o : Nat) (w : Word) :
    Memory.read (Memory.writeWord m o w) o = some (w.extractLsb' 24 8) ∧
    Memory.read (Memory.writeWord m o w) (o + 1) = some (w.extractLsb' 16 8) ∧
    Memory.read (Memory.writeWord m o w) (o + 2) = some (w.extractLsb' 8 8) ∧
    Memory.read (Memory.writeWord m o w) (o + 3) = some (w.extractLsb' 0 8) := by
  simp [Memory.writeWord, Memory.read_write_other, Memory.read_write_same]

/-- A filled byte inside the buffer reads as filled. -/
theorem memRead_of_read {s : State} {o : Nat} {b : Byte} (ho : o < s.bufSize.toNat)
    (hb : Memory.read s.mem o = some b) : memRead s o = some b := by
  simp only [memRead, ho, if_true, hb]

/-- A stored word inside the buffer reads back whole (20 R64). -/
theorem read32BE_writeWord {s : State} {m : Memory} {o : Nat} {w : Word}
    (hm : s.mem = Memory.writeWord m o w) (ho : o + 4 ≤ s.bufSize.toNat) :
    read32BE s o = some w := by
  obtain ⟨h0, h1, h2, h3⟩ := Memory.read_writeWord m o w
  rw [← hm] at h0 h1 h2 h3
  simp only [read32BE, memRead_of_read (by omega) h0, memRead_of_read (by omega) h1,
    memRead_of_read (by omega) h2, memRead_of_read (by omega) h3]
  exact wordOfBytes_beBytes w

/-- Raising a register to a value that it can hold makes it at least that value. -/
theorem le_raised {v : Word} {n : Nat} (hn : n < 2 ^ 32) :
    n ≤ (if v.toNat < n then BitVec.ofNat 32 n else v).toNat := by
  split
  · rw [BitVec.toNat_ofNat, Nat.mod_eq_of_lt hn]
  · rename_i hv
    exact Nat.not_lt.mp hv

/-- The placed candidate lies at the cursor, within the limit, the latched length and the buffer. -/
theorem placeCandidate_inside (w : Word) (s : State) :
    (placeCandidate w s).cur.toNat ≤ (placeCandidate w s).lim.toNat ∧
    (placeCandidate w s).cur.toNat + 4 ≤ (placeCandidate w s).len.toNat ∧
    (placeCandidate w s).cur.toNat + 4 ≤ (placeCandidate w s).bufSize.toNat ∧
    (placeCandidate w s).mem = Memory.writeWord s.mem (placeCandidate w s).cur.toNat w := by
  unfold placeCandidate
  dsimp only
  generalize ho : (if s.cur.toNat + 4 < 2 ^ 32 then s.cur.toNat else 0) = o
  have hlt : o + 4 < 2 ^ 32 := by
    rw [← ho]
    split
    · assumption
    · decide
  have hcur : (BitVec.ofNat 33 o).toNat = o := by
    rw [BitVec.toNat_ofNat]
    omega
  rw [hcur]
  exact ⟨le_raised (by omega), le_raised hlt, le_raised hlt, rfl⟩

/-- The step on a placed candidate executes the row of its word. -/
theorem step_placeCandidate (w : Word) (s : State) :
    step (placeCandidate w s) = exec (decodeHdr w) { placeCandidate w s with inputs := s.inputs } := by
  obtain ⟨hlim, hlen, hsize, hmem⟩ := placeCandidate_inside w s
  rw [step_cons rfl, handleInput]
  exact fsmStep_fetched rfl hlim hlen (read32BE_writeWord hmem hsize)

/-- Settles O28: a placed command is the host's next write, a placed header word the next candidate. -/
theorem placedWordIsRunByTheNextStep : Obligations.PlacedWordIsRunByTheNextStep := by
  refine fun s w => ⟨fun i hport hdec => ?_, fun i hport hdec => ?_⟩
  · have hplaced : s.withFetchWord 32 w = placeCommand (tableWord 32 w) s := by
      simp only [State.withFetchWord, hport]
    rw [hplaced]
    exact stepRunsTheWrittenCommand _ _ i s.inputs rfl (decodeCmd_of_tableWord hport hdec)
  · have hplaced : s.withFetchWord 32 w = placeCandidate (tableWord 32 w) s := by
      simp only [State.withFetchWord, hport]
    obtain ⟨hlim, hlen, -, -⟩ := placeCandidate_inside (tableWord 32 w) s
    rw [hplaced, step_placeCandidate, decodeHdr_of_tableWord hport hdec]
    exact ⟨rfl, rfl, hlim, hlen⟩

end Sys2Proof.Machine
end

section
/-!
PROOFS. The fields of a `VALID` header. Each decoder and each table indexer of 40 R112 to R127 is
characterised once; `decodeHeader_decoded` then says what the validator makes of them, and the
statements about a header's fields and rates follow from the two.
-/

namespace Sys2Proof.Machine

/-! ### The field decoders -/

/-- The code of each version (40 R112). -/
theorem verDec_eq_some_iff (v : BitVec 2) :
    (verDec v = some .v1 ↔ v = 0b11#2) ∧ (verDec v = some .v2 ↔ v = 0b10#2) ∧
    (verDec v = some .v2_5 ↔ v = 0b00#2) := by
  revert v; decide

/-- The code of each layer (40 R113). -/
theorem layDec_eq_some_iff (l : BitVec 2) :
    (layDec l = some .l1 ↔ l = 0b11#2) ∧ (layDec l = some .l2 ↔ l = 0b10#2) ∧
    (layDec l = some .l3 ↔ l = 0b01#2) := by
  revert l; decide

/-- A channel mode's code in HDR_FIELDS is its code in the word (40 R121, 10 R31). -/
theorem chmodeCode_chMode (m : BitVec 2) : chmodeCode (chMode m) = m.setWidth 25 := by
  revert m; decide

/-- An emphasis's code in HDR_FIELDS is its code in the word (40 R123, 10 R31). -/
theorem emphasisCode_emph (e : BitVec 2) : emphasisCode (emph e) = e.setWidth 25 := by
  revert e; decide

/-- In Layer 3 the mode extension selects the stereo tools, by the source's mapping (40 R122). -/
theorem modeExt_l3 (x : BitVec 2) :
    (modeExt .l3 x).lowerBand = 0 ∧ (modeExt .l3 x).upperBand = 0 ∧
    ((modeExt .l3 x).intensity = 1 ↔ x = 0b01#2 ∨ x = 0b10#2) ∧
    ((modeExt .l3 x).ms = 1 ↔ x = 0b10#2 ∨ x = 0b11#2) := by
  revert x; decide

/-- In Layers 1 and 2 it selects the lower bound of the subbands, `4 * (x + 1)` (40 R122). -/
theorem modeExt_of_ne_l3 {lay : Layer} (hlay : lay ≠ .l3) (x : BitVec 2) :
    (modeExt lay x).intensity = 0 ∧ (modeExt lay x).ms = 0 ∧ (modeExt lay x).upperBand = 31 ∧
    (modeExt lay x).lowerBand.toNat = 4 * (x.toNat + 1) := by
  cases lay with
  | l1 | l2 => revert x; decide
  | l3 => exact absurd rfl hlay

/-! ### The table indexers -/

/-- The bitrate indexer answers 0 for index 0, and else an entry of the index's own row (40 R124). -/
theorem bitrateOf_cases {t : BitrateLut} {ver : Version} {lay : Layer} {i : BitVec 4}
    {br : BitVec 9} (hbr : bitrateOf t ver lay i = some br) :
    (i = 0#4 ∧ br = 0) ∨
    (i ≠ 0#4 ∧ ∃ k : Fin 15, k.val ≠ 0 ∧ i.toNat = k.val ∧ br = bitrateColumn ver lay t[k]) := by
  unfold bitrateOf at hbr
  split_ifs at hbr with hzero
  · cases hbr
    exact .inl ⟨hzero, rfl⟩
  · obtain ⟨row, hrow, rfl⟩ := Option.map_eq_some_iff.mp hbr
    obtain ⟨hlt, rfl⟩ := Vector.getElem?_eq_some_iff.mp hrow
    exact .inr ⟨hzero, ⟨i.toNat, hlt⟩, fun hk => hzero (BitVec.eq_of_toNat_eq hk), rfl, rfl⟩

/-- MPEG 2.5 shares the MPEG 2 columns of a row, and Layers 2 and 3 share one of them (40 R124). -/
theorem bitrateColumn_eq (ver : Version) (lay : Layer) (row : BitrateRow) :
    (ver = .v1 → lay = .l1 → bitrateColumn ver lay row = row.v1l1) ∧
    (ver = .v1 → lay = .l2 → bitrateColumn ver lay row = row.v1l2) ∧
    (ver = .v1 → lay = .l3 → bitrateColumn ver lay row = row.v1l3) ∧
    (ver ≠ .v1 → lay = .l1 → bitrateColumn ver lay row = row.v2l1) ∧
    (ver ≠ .v1 → lay ≠ .l1 → bitrateColumn ver lay row = row.v2l23) := by
  cases ver <;> cases lay <;> simp [bitrateColumn]

/-- Whichever column is selected, an entry of an admissible row is at least 2 (40 R129). -/
theorem two_le_bitrateColumn {row : BitrateRow} (hrow : BitrateRow.atLeastTwo row = true)
    (ver : Version) (lay : Layer) : 2 ≤ (bitrateColumn ver lay row).toNat := by
  simp only [BitrateRow.atLeastTwo, Bool.and_eq_true, decide_eq_true_eq] at hrow
  obtain ⟨⟨⟨⟨hv1l1, hv1l2⟩, hv1l3⟩, hv2l1⟩, hv2l23⟩ := hrow
  cases ver <;> cases lay <;> assumption

/-- The rows 1 to 14 of a legal table are admissible (40 R129). -/
theorem atLeastTwo_of_legal {t : BitrateLut} (hlegal : legalBitrateLut t = true) {k : Fin 15}
    (hk : k.val ≠ 0) : BitrateRow.atLeastTwo t[k] = true := by
  simp only [legalBitrateLut, Bool.and_eq_true, List.all_eq_true] at hlegal
  obtain ⟨-, hrows⟩ := hlegal
  apply hrows
  have hget : t.toList.tail[k.val - 1]? = some t[k] := by
    rw [List.getElem?_tail, Nat.sub_add_cancel (Nat.pos_of_ne_zero hk)]
    simp
  exact List.mem_of_getElem? hget

/-- Under a legal table the bitrate indexer answers 0 for index 0, and else at least 2. -/
theorem bitrateOf_cases_of_legal {t : BitrateLut} (hlegal : legalBitrateLut t = true)
    {ver : Version} {lay : Layer} {i : BitVec 4} {br : BitVec 9}
    (hbr : bitrateOf t ver lay i = some br) :
    (i = 0#4 ∧ br = 0) ∨ (i ≠ 0#4 ∧ 2 ≤ br.toNat) := by
  obtain hfree | ⟨hi, k, hk, -, rfl⟩ := bitrateOf_cases hbr
  · exact .inl hfree
  · exact .inr ⟨hi, two_le_bitrateColumn (atLeastTwo_of_legal hlegal hk) ver lay⟩

/-- The sample-rate indexer answers the entry of the version's column (40 R127, R128). -/
theorem srateOf_entry {ver : Version} {j : BitVec 2} {sr : BitVec 16}
    (hsr : srateOf ver j = some sr) :
    (ver = .v1 → sr = if j = 0#2 then 44100 else if j = 1#2 then 48000 else 32000) ∧
    (ver = .v2 → sr = if j = 0#2 then 22050 else if j = 1#2 then 24000 else 16000) ∧
    (ver = .v2_5 → sr = if j = 0#2 then 11025 else if j = 1#2 then 12000 else 8000) := by
  rcases bitVec_two_cases j with rfl | rfl | rfl | rfl <;> cases ver <;> cases hsr <;> decide

/-! ### The divider -/

/-- A frame at 2 kbps or more has at least 4 bytes: 6 at the highest sample rate (40 R130, R142). -/
theorem four_le_frameSize {br sr : Nat} (hbr : 2 ≤ br) (hsr : 0 < sr) (hmax : sr ≤ 48000)
    (pad : Nat) : 4 ≤ frameSize br sr pad := by
  have hdiv : 4 ≤ 144 * br * 1000 / sr := (Nat.le_div_iff_mul_le hsr).mpr (by omega)
  rw [frameSize, if_neg (by omega)]
  exact hdiv.trans (Nat.le_add_right ..)

/-! ### The validator -/

/-- A `VALID` header's version, layer and rates are the decoders' answers for its word (40 R141). -/
theorem decodeHeader_decoded {t : BitrateLut} {w o : Word} {h : HeaderRecord}
    (hd : decodeHeader t w o = .valid h) :
    verDec (w.extractLsb' 19 2) = some h.version ∧ layDec (w.extractLsb' 17 2) = some h.layer ∧
    bitrateOf t h.version h.layer (w.extractLsb' 12 4) = some h.bitrate ∧
    srateOf h.version (w.extractLsb' 10 2) = some h.srate := by
  obtain ⟨ver, lay, br, sr, -, hver, hlay, hbr, hsr, rfl⟩ :=
    (decodeHeader_eq_valid_iff t w o h).mp hd
  exact ⟨hver, hlay, hbr, hsr⟩

/-- The frame size of a `VALID` header is the divider's natural number, whole in its 16 bits. -/
theorem decodeHeader_frameSize {t : BitrateLut} {w o : Word} {h : HeaderRecord}
    (hd : decodeHeader t w o = .valid h) :
    h.frameSize.toNat = frameSize h.bitrate.toNat h.srate.toNat h.padded.toNat := by
  obtain ⟨ver, lay, br, sr, -, -, -, -, hsr, rfl⟩ := (decodeHeader_eq_valid_iff t w o h).mp hd
  obtain ⟨hmin, -⟩ := srateOf_range hsr
  have hle := frameSize_le br.isLt hmin (w.extractLsb' 9 1).isLt
  exact (BitVec.toNat_ofNat ..).trans (Nat.mod_eq_of_lt (hle.trans_lt (by decide)))

/-- Settles O8: each decoder's own characterisation, read at the field of the word. -/
theorem validHeaderFieldsFollowTheWord : Obligations.ValidHeaderFieldsFollowTheWord := by
  intro t w o h hd
  obtain ⟨ver, lay, br, sr, -, hver, hlay, -, -, rfl⟩ := (decodeHeader_eq_valid_iff t w o h).mp hd
  obtain ⟨hv1, hv2, hv25⟩ := verDec_eq_some_iff (w.extractLsb' 19 2)
  obtain ⟨hl1, hl2, hl3⟩ := layDec_eq_some_iff (w.extractLsb' 17 2)
  rw [hver, Option.some_inj] at hv1 hv2 hv25
  rw [hlay, Option.some_inj] at hl1 hl2 hl3
  refine ⟨rfl, rfl, hv1, hv2, hv25, hl1, hl2, hl3, rfl, rfl, rfl, rfl, chmodeCode_chMode _,
    emphasisCode_emph _, ?_, fun hne => modeExt_of_ne_l3 hne _⟩
  rintro rfl
  exact modeExt_l3 _

/-- Settles O9: the row of the index, then the column. -/
theorem bitrateComesFromTheSelectedColumn : Obligations.BitrateComesFromTheSelectedColumn := by
  intro t w o h hd
  obtain ⟨-, -, hbr, -⟩ := decodeHeader_decoded hd
  obtain ⟨hzero, hbr⟩ | ⟨hne, k, hk, hi, hbr⟩ := bitrateOf_cases hbr
  · refine ⟨fun _ => hbr, fun k hi hk => absurd ?_ hk⟩
    rw [← hi, hzero]
    rfl
  · refine ⟨fun hzero => absurd hzero hne, fun k' hi' _ => ?_⟩
    obtain rfl : k = k' := Fin.ext (hi.symm.trans hi')
    rw [hbr]
    exact bitrateColumn_eq h.version h.layer t[k]

/-- Settles O10: the entry is one of nine, all of them at least 8000. -/
theorem sampleRateIsTheTableEntryAndNotZero : Obligations.SampleRateIsTheTableEntryAndNotZero := by
  intro t w o h hd
  obtain ⟨-, -, -, hsr⟩ := decodeHeader_decoded hd
  obtain ⟨hmin, -⟩ := srateOf_range hsr
  refine ⟨fun hzero => ?_, srateOf_entry hsr⟩
  rw [hzero] at hmin
  exact absurd hmin (by decide)

/-- Settles O11: of the divider's two zero guards only the bitrate's can fire. -/
theorem frameSizeIsExactAndBounded : Obligations.FrameSizeIsExactAndBounded := by
  intro t w o h hd
  refine ⟨?_, decodeHeader_frameSize_le hd⟩
  obtain ⟨-, -, -, hsr⟩ := decodeHeader_decoded hd
  obtain ⟨hmin, -⟩ := srateOf_range hsr
  have hguard : (h.bitrate.toNat = 0 ∨ h.srate.toNat = 0) ↔ h.bitrate = 0 := by
    rw [or_iff_left (by omega), ← BitVec.toNat_inj]
    rfl
  rw [decodeHeader_frameSize hd, frameSize]
  simp only [hguard]

/-- Settles O12: a legal entry is at least 2 and a sample rate at most 48000. -/
theorem frameSizeAtLeastFourUnlessFreeFormat : Obligations.FrameSizeAtLeastFourUnlessFreeFormat := by
  intro t w o h hlegal hd
  obtain ⟨-, -, hbr, hsr⟩ := decodeHeader_decoded hd
  obtain ⟨hmin, hmax⟩ := srateOf_range hsr
  have hsize := decodeHeader_frameSize hd
  constructor
  · intro hne
    obtain ⟨-, hzero⟩ | ⟨-, htwo⟩ := bitrateOf_cases_of_legal hlegal hbr
    · exact absurd hzero hne
    · rw [hsize]
      exact four_le_frameSize htwo (by omega) hmax _
  · intro hzero
    rw [hzero, frameSize, if_pos (.inl rfl)] at hsize
    exact BitVec.eq_of_toNat_eq hsize

/-- Settles O13: only index 0 gives 0, since a legal entry is at least 2. -/
theorem bitrateZeroExactlyForFreeFormat : Obligations.BitrateZeroExactlyForFreeFormat := by
  intro t w o h hlegal hd
  obtain ⟨-, -, hbr, -⟩ := decodeHeader_decoded hd
  obtain ⟨hi, hzero⟩ | ⟨hi, htwo⟩ := bitrateOf_cases_of_legal hlegal hbr
  · exact iff_of_true hzero hi
  · refine iff_of_false (fun hzero => ?_) hi
    rw [hzero] at htwo
    exact absurd htwo (by decide)

end Sys2Proof.Machine
end

section
/-!
PROOFS. The four commands as instructions (41 R160 to R164, 42 R190), and the write to CMD that carries
one: where it is accepted and where it is rejected (41 R161).
-/

namespace Sys2Proof.Machine

/-- Settles O17: in IDLE each command's meaning is an acceptance, which BUF_LEN does not stop. -/
theorem idleCommandsAreAccepted : Obligations.IdleCommandsAreAccepted := by
  intro s g hidle hlen
  refine ⟨?_, ?_, ?_, fun hunit => ?_⟩
  · simp only [exec, execParse, hidle]
    exact accept_of_le hlen
  · simp only [exec, execLocate, hidle]
    exact accept_of_le hlen
  · simp only [exec, execAdvance, hidle]
    exact accept_of_le hlen
  · simp only [exec, execTagsize, hidle, hunit]
    exact accept_of_le hlen

/-! ### OP, and what the command decoder makes of it -/

/-- The four OP values of 30 R95, with the ignored bits of the word. -/
theorem decodeCmd_of_op (v : Word) :
    (v.extractLsb' 0 3 = 1#3 → decodeCmd v = .ok (.parse (v.extractLsb' 3 29))) ∧
    (v.extractLsb' 0 3 = 2#3 → decodeCmd v = .ok (.locate (v.extractLsb' 3 29))) ∧
    (v.extractLsb' 0 3 = 3#3 → decodeCmd v = .ok (.advance (v.extractLsb' 3 29))) ∧
    (v.extractLsb' 0 3 = 4#3 → decodeCmd v = .ok (.tagsize (v.extractLsb' 3 29))) := by
  refine ⟨?_, ?_, ?_, ?_⟩ <;> intro hop <;> simp [decodeCmd, hop]

/-- OP is the word modulo 8. -/
theorem extractLsb'_op_toNat (v : Word) : (v.extractLsb' 0 3).toNat = v.toNat % 8 :=
  BitVec.extractLsb'_toNat ..

/-! ### The write to CMD -/

section
variable {s : State} {v : Word} {rest : List Input} (hin : s.inputs = .write 0x00 32 v :: rest)
  (hidle : s.fsm = .idle) (hlen : s.bufLen.toNat ≤ s.bufSize.toNat)
include hin hidle hlen

/-- The step that writes an accepted PARSE (41 R162). -/
theorem step_parse (hop : v.extractLsb' 0 3 = 1#3) :
    step s = .next (acceptScan (s.argStart.setWidth 33) s.argStart { s with inputs := rest }) := by
  obtain ⟨hdec, -⟩ := decodeCmd_of_op v
  obtain ⟨hexec, -⟩ :=
    idleCommandsAreAccepted { s with inputs := rest } (v.extractLsb' 3 29) hidle hlen
  exact (stepRunsTheWrittenCommand s v _ rest hin (hdec hop)).trans hexec

/-- The step that writes an accepted LOCATE (41 R163). -/
theorem step_locate (hop : v.extractLsb' 0 3 = 2#3) :
    step s = .next (acceptScan (s.argStart.setWidth 33) s.argEnd { s with inputs := rest }) := by
  obtain ⟨-, hdec, -⟩ := decodeCmd_of_op v
  obtain ⟨-, hexec, -⟩ :=
    idleCommandsAreAccepted { s with inputs := rest } (v.extractLsb' 3 29) hidle hlen
  exact (stepRunsTheWrittenCommand s v _ rest hin (hdec hop)).trans hexec

/-- The step that writes an accepted ADVANCE (41 R164). -/
theorem step_advance (hop : v.extractLsb' 0 3 = 3#3) :
    step s = .next (acceptScan (advanceOrigin s) s.argEnd { s with inputs := rest }) := by
  obtain ⟨-, -, hdec, -⟩ := decodeCmd_of_op v
  obtain ⟨-, -, hexec, -⟩ :=
    idleCommandsAreAccepted { s with inputs := rest } (v.extractLsb' 3 29) hidle hlen
  exact (stepRunsTheWrittenCommand s v _ rest hin (hdec hop)).trans hexec

/-- The step that writes an accepted TAGSIZE (42 R190). -/
theorem step_tagsize (hop : v.extractLsb' 0 3 = 4#3) (hunit : s.params.id3Unit = .present) :
    step s = .next (acceptTag { s with inputs := rest }) := by
  obtain ⟨-, -, -, hdec⟩ := decodeCmd_of_op v
  obtain ⟨-, -, -, hexec⟩ :=
    idleCommandsAreAccepted { s with inputs := rest } (v.extractLsb' 3 29) hidle hlen
  exact (stepRunsTheWrittenCommand s v _ rest hin (hdec hop)).trans (hexec hunit)

end

/-- Settles O18: the four steps that write an accepted command. -/
theorem cmdWriteWhileIdleIsAccepted : Obligations.CmdWriteWhileIdleIsAccepted := by
  intro s v rest hidle hlen hin
  exact ⟨fun hop => ⟨_, step_parse hin hidle hlen hop, rfl, rfl⟩,
    fun hop => ⟨_, step_locate hin hidle hlen hop, rfl, rfl⟩,
    fun hop => ⟨_, step_advance hin hidle hlen hop, rfl, rfl⟩,
    fun hop hunit => ⟨_, step_tagsize hin hidle hlen hop hunit, rfl, rfl⟩⟩

/-- A write to CMD is not accepted while the FSM is busy. -/
theorem acceptsWrite_of_busy {s : State} (v : Word) (h : s.fsm ≠ .idle) : acceptsWrite v s = false := by
  simp only [acceptsWrite, beq_eq_false_iff_ne.mpr h, Bool.false_and]

/-- OP 4 is not accepted without the ID3v2 unit (30 R96). -/
theorem acceptsWrite_of_absent {s : State} {v : Word} (hop : v.toNat % 8 = 4)
    (h : s.params.id3Unit = .absent) : acceptsWrite v s = false := by
  have hop : v.extractLsb' 0 3 = 4#3 :=
    BitVec.eq_of_toNat_eq ((extractLsb'_op_toNat v).trans hop)
  simp [acceptsWrite, hop, h]

/-- Settles O19: none of the three cases is accepted, and a write to CMD that is not is rejected. -/
theorem rejectedCmdWriteOnlySetsCmdErr : Obligations.RejectedCmdWriteOnlySetsCmdErr := by
  intro s v rest hin hwhy
  have hreserved : (v.toNat % 8 = 0 ∨ v.toNat % 8 = 5 ∨ v.toNat % 8 = 6 ∨ v.toNat % 8 = 7) →
      acceptsWrite v s = false := fun hop => by
    obtain ⟨e, hdec⟩ := (onlyReservedOpsAreNoCommand v).mpr hop
    exact acceptsWrite_of_error s hdec
  have hrejected : acceptsWrite v s = false := by
    rcases hwhy with hbusy | h0 | h5 | h6 | h7 | ⟨h4, habsent⟩
    · exact acceptsWrite_of_busy v hbusy
    · exact hreserved (.inl h0)
    · exact hreserved (.inr (.inl h5))
    · exact hreserved (.inr (.inr (.inl h6)))
    · exact hreserved (.inr (.inr (.inr h7)))
    · exact acceptsWrite_of_absent h4 habsent
  rw [step_cons hin, handleInput]
  rcases hostWrite_cmd_cases v { s with inputs := rest } with ⟨haccepted, -⟩ | ⟨-, he⟩
  · exact absurd (hrejected.symm.trans haccepted) Bool.false_ne_true
  · exact he

/-- Settles O20: both summands of each sum are far below 2^33. -/
theorem advanceOriginNeverWraps : Obligations.AdvanceOriginNeverWraps := by
  intro s
  have hend := s.argEnd.isLt
  have hoff := s.hdr.offset.isLt
  have hsize := s.hdr.frameSize.isLt
  change (s.hdrValid = false → _) ∧ (s.hdrValid = true → _) ∧ (s.hdrValid = true → _)
  refine ⟨fun hv => ?_, fun hv hzero => ?_, fun hv hne => ?_⟩
  · rw [advanceOrigin, if_pos hv]
    bv_omega
  · rw [advanceOrigin, if_neg (by simp [hv]), if_pos hzero]
    bv_omega
  · rw [advanceOrigin, if_neg (by simp [hv]), if_neg hne]
    bv_omega

end Sys2Proof.Machine
end

section
/-!
PROOFS. The scan step with each header value (41 R171), the FSM's turn that takes it, and what it makes
of each header row as an instruction (30 R89, 40 R141).
-/

namespace Sys2Proof.Machine

/-! ### The scan step, case by case -/

/-- Past the limit the scan ends with `INVALID`, whatever the candidate. -/
theorem scanStep_past {s : State} (h : Header) (hlim : s.lim.toNat < s.cur.toNat) :
    scanStep h s = complete .invalid s :=
  if_pos (decide_eq_true hlim)

/-- Within the limit the scan ends with a valid candidate. -/
theorem scanStep_valid {s : State} (r : HeaderRecord) (hlim : s.cur.toNat ≤ s.lim.toNat) :
    scanStep (.valid r) s = complete (.valid r) s :=
  if_neg fun hpast => Nat.not_lt.mpr hlim (of_decide_eq_true hpast)

/-- Within the limit an invalid candidate moves the scan on by one byte. -/
theorem scanStep_invalid {s : State} (hlim : s.cur.toNat ≤ s.lim.toNat) :
    scanStep .invalid s = { s with cur := s.cur + 1 } :=
  if_neg fun hpast => Nat.not_lt.mpr hlim (of_decide_eq_true hpast)

/-- Past the limit the FSM ends the scan without a read (41 R171). -/
theorem fsmStep_past {s : State} (hscan : s.fsm = .scan) (hlim : s.lim.toNat < s.cur.toNat) :
    fsmStep s = .next (complete .invalid s) := by
  have hpast : pastLimit s = true := decide_eq_true hlim
  simp only [fsmStep, hscan, hpast, Bool.true_or, if_true, scanStep_past _ hlim]

/-- Within the limit the FSM ends the scan with the valid header at the cursor. -/
theorem fsmStep_found {s : State} {r : HeaderRecord} (hscan : s.fsm = .scan)
    (hlim : s.cur.toNat ≤ s.lim.toNat) (hh : headerAt s s.cur.toNat = some (.valid r)) :
    fsmStep s = .next (complete (.valid r) s) := by
  rw [fsmStep_scan hscan hh, scanStep_valid r hlim]

/-- Within the limit the FSM moves on over an invalid candidate. -/
theorem fsmStep_moveOn {s : State} (hscan : s.fsm = .scan) (hlim : s.cur.toNat ≤ s.lim.toNat)
    (hh : headerAt s s.cur.toNat = some .invalid) :
    fsmStep s = .next { s with cur := s.cur + 1 } := by
  rw [fsmStep_scan hscan hh, scanStep_invalid hlim]

/-- A candidate without 4 bytes is `INVALID` (40 R150). -/
theorem headerAt_short {s : State} {o : Nat} (h : s.len.toNat < o + 4) :
    headerAt s o = some .invalid :=
  if_pos (decide_eq_true h)

/-- A candidate's header does not depend on the events to come. -/
theorem headerAt_inputs (s : State) (ins : List Input) (o : Nat) :
    headerAt { s with inputs := ins } o = headerAt s o :=
  headerAt_congr rfl rfl (fun _ _ => rfl) o

/-- Settles O29: the FSM's turn is the scan step with the header at the cursor, one clause a case. -/
theorem scanStepExaminesTheCandidate : Obligations.ScanStepExaminesTheCandidate := by
  intro s hscan hturn
  rw [step_fsmTurn hturn]
  exact ⟨fun hlim => fsmStep_past hscan hlim,
    fun hlim hh => fsmStep_moveOn hscan hlim ((headerAt_inputs ..).trans hh),
    fun r hlim hh => fsmStep_found hscan hlim ((headerAt_inputs ..).trans hh), headerAt_short⟩

/-- Settles O27: the FSM executes the row of the word that the four bytes make. -/
theorem stepRunsTheFetchedHeaderWord : Obligations.StepRunsTheFetchedHeaderWord := by
  intro s b0 b1 b2 b3 hscan hlim hlen h0 h1 h2 h3
  have hword : read32BE s s.cur.toNat = some (b0 ++ b1 ++ b2 ++ b3) := by
    simp only [read32BE, h0, h1, h2, h3, be32]
  refine ⟨fun hin => ?_, fun rest hin => ?_⟩
  · rw [step_nil hin, fsmStep_fetched hscan hlim hlen hword]
  · rw [step_cons hin, handleInput]
    exact fsmStep_fetched (s := { s with inputs := rest }) hscan hlim hlen hword

/-! ### Header rows as instructions -/

/-- A header word executed in SCAN is the scan step with the header its word decodes to. -/
theorem exec_header_scan {i : Instr} {s : State} (hi : i.isCommand = false) (hscan : s.fsm = .scan) :
    exec i s = .next (scanStep (headerOfWord s s.cur.toNat (encode i)) s) := by
  rw [exec_header s hi, examine_scan _ hscan]

/-- Outside SCAN the FSM examines no candidate (log 7). -/
theorem examine_of_ne_scan {s : State} (w : Word) (h : s.fsm ≠ .scan) : examine w s = s := by
  unfold examine
  split
  · exact absurd ‹_› h
  · rfl
  · rfl

/-- Settles O23: the scan step past the limit, with a candidate that is too short, and none at all. -/
theorem headerWordsOutsideTheRange : Obligations.HeaderWordsOutsideTheRange := by
  intro i s hi
  refine ⟨fun hscan hlim => ?_, fun hscan hlim hlen => ?_, fun hne => ?_⟩
  · rw [exec_header_scan hi hscan, scanStep_past _ hlim]
    rfl
  · rw [exec_header_scan hi hscan, headerOfWord_short _ hlen, scanStep_invalid hlim]
  · rw [exec_header s hi, examine_of_ne_scan _ hne]

/-! ### The sync row and the reject rows -/

/-- A row whose words are not acceptable moves the scan on by one byte (60 R201). -/
theorem exec_rejected {i : Instr} {s : State} (hi : i.isCommand = false)
    (hok : wordOK (encode i) = false) (hscan : s.fsm = .scan) (hlim : s.cur.toNat ≤ s.lim.toNat) :
    exec i s = .next { s with cur := s.cur + 1 } := by
  have hinvalid : headerOfWord s s.cur.toNat (encode i) = .invalid := by
    rw [headerOfWord, decodeHeader_invalid hok, ite_self]
  rw [exec_header_scan hi hscan, hinvalid, scanStep_invalid hlim]

/-- The middle one of three fields side by side. -/
theorem extractLsb'_append_middle {m n k : Nat} (a : BitVec m) (b : BitVec n) (c : BitVec k) :
    (a ++ b ++ c).extractLsb' k n = b := by
  apply BitVec.eq_of_getLsbD_eq
  intro i hi
  simp [BitVec.getLsbD_append, hi]

/-- Settles O22: the word of each row breaks the one condition of 30 R87 that the row is about. -/
theorem rejectedWordsMoveTheCursorByOne : Obligations.RejectedWordsMoveTheCursorByOne := by
  intro s hscan hlim
  refine ⟨fun w hsync => ?_, fun rest => ?_, fun ver rest => ?_, fun ver lay prot rest => ?_,
    fun ver lay prot bri rest => ?_⟩ <;>
    refine exec_rejected rfl ?_ hscan hlim <;> rw [← Bool.not_eq_true, wordOK_iff]
  · rintro ⟨h, -⟩
    exact hsync h
  · rintro ⟨-, hver, -⟩
    exact hver (extractLsb'_append_middle 0x7FF#11 0b01#2 rest)
  · rintro ⟨-, -, hlay, -⟩
    exact hlay (extractLsb'_append_middle (0x7FF#11 ++ ver) 0b00#2 rest)
  · rintro ⟨-, -, -, hbri, -⟩
    exact hbri (extractLsb'_append_middle (0x7FF#11 ++ ver ++ lay ++ prot) 0b1111#4 rest)
  · rintro ⟨-, -, -, -, hsri⟩
    exact hsri (extractLsb'_append_middle (0x7FF#11 ++ ver ++ lay ++ prot ++ bri) 0b11#2 rest)

/-! ### The class rows -/

/-- The header of a class word is its row's version and layer, the rates of its indexes and its other
fields (40 R141). -/
theorem decodeHeader_classWord (t : BitrateLut) {v l : BitVec 2} {f : HdrFields} {ver : Version}
    {lay : Layer} {br : BitVec 9} {sr : BitVec 16} (o : Word) (hver : verDec v = some ver)
    (hlay : layDec l = some lay) (hbr : bitrateOf t ver lay f.bri = some br)
    (hsr : srateOf ver f.sri = some sr) :
    decodeHeader t (classWord v l f) o = .valid
      { offset := o, word := classWord v l f, version := ver, layer := lay, crc := f.prot,
        bitrate := br, srate := sr, padded := f.pad, chmode := chMode f.mode,
        modeExt := modeExt lay f.modex, copyright := f.copy, original := f.orig,
        emphasis := emph f.emph,
        frameSize := BitVec.ofNat 16 (frameSize br.toNat sr.toNat f.pad.toNat) } := by
  have hsync : syncOK (classWord v l f) = true :=
    beq_iff_eq.mpr (congrArg RawFields.sync (extract_headerWord _))
  unfold decodeHeader
  rw [hsync]
  simp only [classWord, extract_headerWord, hver, hlay, hbr, hsr, Bool.true_eq_false, if_false]

/-- A well-formed class word within limit and length completes the command with its header. -/
theorem exec_class {i : Instr} {v l : BitVec 2} {f : HdrFields} {ver : Version} {lay : Layer}
    {s : State} (hi : i.isCommand = false) (hword : encode i = classWord v l f)
    (hver : verDec v = some ver) (hlay : layDec l = some lay) (hwf : f.wf = true)
    (hscan : s.fsm = .scan) (hlim : s.cur.toNat ≤ s.lim.toNat)
    (hlen : s.cur.toNat + 4 ≤ s.len.toNat) :
    ∃ br sr, bitrateOf s.params.bitrateLut ver lay f.bri = some br ∧
      srateLut ver f.sri = some sr ∧
      exec i s = .next (complete (.valid
        { offset := s.cur.setWidth 32, word := encode i, version := ver, layer := lay,
          crc := f.prot, bitrate := br, srate := sr, padded := f.pad, chmode := chMode f.mode,
          modeExt := modeExt lay f.modex, copyright := f.copy, original := f.orig,
          emphasis := emph f.emph,
          frameSize := BitVec.ofNat 16 (frameSize br.toNat sr.toNat f.pad.toNat) }) s) := by
  obtain ⟨hbri, hsri⟩ := f.wf_iff.mp hwf
  obtain ⟨br, hbr⟩ := (bitrateOf_isSome s.params.bitrateLut ver lay f.bri).mpr hbri
  obtain ⟨sr, hsr⟩ := (srateOf_isSome ver f.sri).mpr hsri
  refine ⟨br, sr, hbr, by rwa [srateOf, if_neg hsri] at hsr, ?_⟩
  rw [exec_header_scan hi hscan, headerOfWord_eq _ hlen, hword,
    decodeHeader_classWord _ _ hver hlay hbr hsr, scanStep_valid _ hlim]
  rfl

/-- Settles O21: the word of each of the nine rows is a class word with the row's VER and LAY. -/
theorem classWordsCompleteWithTheirHeader : Obligations.ClassWordsCompleteWithTheirHeader := by
  intro c ver lay hrow f s hwf hscan hlim hlen
  simp only [List.mem_cons, List.not_mem_nil, or_false, Prod.mk.injEq] at hrow
  rcases hrow with ⟨rfl, rfl, rfl⟩ | ⟨rfl, rfl, rfl⟩ | ⟨rfl, rfl, rfl⟩ | ⟨rfl, rfl, rfl⟩ |
    ⟨rfl, rfl, rfl⟩ | ⟨rfl, rfl, rfl⟩ | ⟨rfl, rfl, rfl⟩ | ⟨rfl, rfl, rfl⟩ | ⟨rfl, rfl, rfl⟩ <;>
    exact exec_class rfl rfl rfl rfl hwf hscan hlim hlen

/-! ### The frame of every instruction -/

/-- What an instruction that answers a next state does: a command word a rejection or an acceptance, a
header word nothing or, in SCAN, a completion or one step of the cursor. -/
theorem exec_next {i : Instr} {s t : State} (h : exec i s = .next t) :
    (i.isCommand = true ∧
      (t = reject s ∨ (s.fsm = .idle ∧ ∃ c l, t = acceptScan c l s) ∨
        (s.fsm = .idle ∧ t = acceptTag s))) ∨
    (i.isCommand = false ∧
      (t = s ∨ (s.fsm = .scan ∧ ∃ hd, t = complete hd s) ∨
        (s.fsm = .scan ∧ t = { s with cur := s.cur + 1 }))) := by
  cases hi : i.isCommand with
  | true =>
    refine .inl ⟨rfl, ?_⟩
    rcases exec_command s hi with ⟨-, he⟩ | ⟨hidle, -, c, l, he, -⟩ | ⟨hidle, -, he⟩ <;> rw [he] at h
    · cases h
      exact .inl rfl
    · exact .inr (.inl ⟨hidle, c, l, (accept_next h).1⟩)
    · exact .inr (.inr ⟨hidle, (accept_next h).1⟩)
  | false =>
    refine .inr ⟨rfl, ?_⟩
    by_cases hscan : s.fsm = .scan
    · rw [exec_header_scan hi hscan] at h
      cases h
      rcases scanStep_cases (headerOfWord s s.cur.toNat (encode i)) s with
        ⟨-, he⟩ | ⟨-, r, -, he⟩ | ⟨-, -, he⟩ <;> rw [he]
      · exact .inr (.inl ⟨hscan, _, rfl⟩)
      · exact .inr (.inl ⟨hscan, _, rfl⟩)
      · exact .inr (.inr ⟨hscan, rfl⟩)
    · rw [exec_header s hi, examine_of_ne_scan _ hscan] at h
      cases h
      exact .inl rfl

/-- Settles O25, by what each of the six kinds of effect writes. -/
theorem instructionFrame : Obligations.InstructionFrame := by
  intro i s t h
  rcases exec_next h with ⟨hi, heffect⟩ | ⟨hi, heffect⟩
  · rcases heffect with rfl | ⟨hidle, c, l, rfl⟩ | ⟨hidle, rfl⟩ <;>
      refine ⟨rfl, rfl, rfl, rfl, rfl, rfl, rfl, rfl, rfl, rfl, fun _ => rfl, fun _ => ⟨rfl, ?_⟩,
        fun hi' => nomatch hi.symm.trans hi'⟩
    · exact ⟨fun _ => ⟨rfl, rfl, rfl, rfl, rfl⟩, .inr rfl⟩
    · exact ⟨(absurd hidle ·), .inl rfl⟩
    · exact ⟨(absurd hidle ·), .inl rfl⟩
  · rcases heffect with rfl | ⟨hscan, hd, rfl⟩ | ⟨hscan, rfl⟩ <;>
      refine ⟨rfl, rfl, rfl, rfl, rfl, rfl, rfl, rfl, rfl, rfl, fun _ => rfl,
        fun hi' => (nomatch hi.symm.trans hi'), fun _ => ⟨rfl, rfl, rfl, ?_⟩⟩
    · exact ⟨fun _ => ⟨rfl, rfl⟩, (absurd rfl ·)⟩
    · exact ⟨fun hf => (nomatch hf.trans hscan), fun _ => ⟨hscan, rfl, rfl, rfl⟩⟩
    · exact ⟨fun _ => ⟨rfl, rfl⟩, (absurd rfl ·)⟩

end Sys2Proof.Machine
end

section
/-!
PROOFS. Whole commands (41 R162 to R164, R172, R173): a scan left alone, by recursion over the offsets
left to examine, and with the write to CMD before it PARSE, LOCATE and ADVANCE.
-/

namespace Sys2Proof.Machine

/-! ### A scan left alone -/

/-- A scan left alone, by recursion over the offsets left to examine: each turn of the FSM ends it or
moves it on by one byte, and only a scan whose origin is past its limit needs a turn of its own. -/
theorem run_scan (s : State) (hscan : s.fsm = .scan) (hin : s.inputs = [])
    (hlen : s.len.toNat ≤ s.bufSize.toNat) :
    ∃ (k : Nat) (h : Header) (c : Cursor),
      k ≤ max (s.lim.toNat + 2 - s.cur.toNat) 1 ∧ IsScanResult s s.cur.toNat s.lim.toNat h ∧
      Host.Core.run Sys2Proof.core k s = .next (complete h { s with cur := c }) := by
  by_cases hlim : s.lim.toNat < s.cur.toNat
  · exact ⟨1, .invalid, s.cur, Nat.le_max_right _ _, isScanResult_past s hlim,
      run_succ 0 ((step_nil hin).trans (fsmStep_past hscan hlim))⟩
  have hlim : s.cur.toNat ≤ s.lim.toNat := Nat.not_lt.mp hlim
  obtain ⟨h, hh⟩ := headerAt_isSome hlen s.cur.toNat
  cases h with
  | valid r =>
    exact ⟨1, .valid r, s.cur, Nat.le_max_right _ _, isScanResult_found hlim hh,
      run_succ 0 ((step_nil hin).trans (fsmStep_found hscan hlim hh))⟩
  | invalid =>
    have hcur : (s.cur + 1).toNat = s.cur.toNat + 1 := cursor_succ hlim
    obtain ⟨k, h, c, hk, hres, hrun⟩ := run_scan { s with cur := s.cur + 1 } hscan hin hlen
    refine ⟨k + 1, h, c, ?_, isScanResult_next hh ?_, ?_⟩
    · simp only [hcur] at hk
      omega
    · rw [← hcur]
      exact hres.congr (headerAt_congr rfl rfl fun _ _ => rfl)
    · exact (run_succ k ((step_nil hin).trans (fsmStep_moveOn hscan hlim hh))).trans hrun
termination_by s.lim.toNat + 1 - s.cur.toNat
decreasing_by
  simp only [hcur]
  omega

/-- Settles O51, by recursion over the offsets left to examine. -/
theorem scanCompletesWithTheFirstValidHeader : Obligations.ScanCompletesWithTheFirstValidHeader :=
  fun s hscan hin hcovers => run_scan s hscan hin (of_decide_eq_true hcovers)

/-! ### The write to CMD and the scan it starts -/

/-- An accepted scan command from its write to its end: the result of the scan from its origin over the
latched length, and the state it ends in. -/
theorem run_accepted_scan {s : State} {c : Cursor} {l : Word}
    (hstep : step s = .next (acceptScan c l { s with inputs := [] }))
    (hlen : s.bufLen.toNat ≤ s.bufSize.toNat) :
    ∃ (k : Nat) (h : Header) (c' : Cursor),
      k ≤ max (l.toNat + 2 - c.toNat) 1 + 1 ∧
      IsScanResult { s with len := s.bufLen } c.toNat l.toNat h ∧
      Host.Core.run Sys2Proof.core k s =
        .next (complete h { acceptScan c l { s with inputs := [] } with cur := c' }) := by
  obtain ⟨k, h, c', hk, hres, hrun⟩ := run_scan (acceptScan c l { s with inputs := [] }) rfl rfl hlen
  exact ⟨k + 1, h, c', Nat.succ_le_succ hk, hres.congr (headerAt_congr rfl rfl fun _ _ => rfl),
    (run_succ k hstep).trans hrun⟩

/-- An argument register as a cursor keeps its value (41 R162, R163). -/
theorem toNat_setWidth_cursor (v : Word) : (v.setWidth 33 : Cursor).toNat = v.toNat :=
  BitVec.toNat_setWidth_of_le (by decide)

/-- Settles O53: the write, then the scan from ARG_START to ARG_END. -/
theorem locateReturnsTheFirstValidHeader : Obligations.LocateReturnsTheFirstValidHeader := by
  intro s v hidle hop hin hlen
  obtain ⟨k, h, c, -, hres, hrun⟩ := run_accepted_scan (step_locate hin hidle hlen hop) hlen
  rw [toNat_setWidth_cursor] at hres
  exact ⟨k, h, _, hres, hrun, rfl, rfl, rfl, rfl, rfl, rfl, rfl⟩

/-- A scan of one offset returns the header there. -/
theorem IsScanResult.headerAt_of_single {s : State} {o : Nat} {h : Header}
    (hres : IsScanResult s o o h) : headerAt s o = some h := by
  rcases hres with ⟨o', r, hmin, hmax, hh, rfl, -⟩ | ⟨rfl, hall⟩
  · rwa [Nat.le_antisymm hmax hmin] at hh
  · exact hall o (Nat.le_refl o) (Nat.le_refl o)

/-- Settles O52: the write, then the scan of the one offset ARG_START. -/
theorem parseReturnsItsOneCandidate : Obligations.ParseReturnsItsOneCandidate := by
  intro s v hidle hop hin hlen
  obtain ⟨k, h, c, hk, hres, hrun⟩ := run_accepted_scan (step_parse hin hidle hlen hop) hlen
  rw [toNat_setWidth_cursor] at hk hres
  exact ⟨k, h, _, by omega, hres.headerAt_of_single, hrun, rfl, rfl, rfl, rfl, rfl, rfl, rfl⟩

/-! ### ADVANCE -/

/-- A valid candidate has its 4 bytes inside the latched length, and its header its offset. -/
theorem headerAt_valid {s : State} {o : Nat} {r : HeaderRecord} (h : headerAt s o = some (.valid r)) :
    o + 4 ≤ s.len.toNat ∧ r.offset.toNat = o := by
  have hlen : o + 4 ≤ s.len.toNat := by
    by_contra hshort
    rw [headerAt_short (Nat.not_le.mp hshort)] at h
    cases h
  refine ⟨hlen, ?_⟩
  have hmax := s.len.isLt
  unfold headerAt at h
  split at h
  · cases h
  · split at h
    · rw [headerOfWord_eq _ hlen, Option.some_inj] at h
      rw [decodeHeader_offset h, BitVec.toNat_ofNat, Nat.mod_eq_of_lt (by omega)]
    · cases h

/-- HDR_FIELDS of a valid header has VALID = 1 (10 R29). -/
theorem packFields_valid (r : HeaderRecord) : (packFields r).getLsbD 0 = true := by
  rw [packFields_eq_append, BitVec.getLsbD_append]
  simp

/-- FOUND is 1 exactly when the result registers hold a valid header (10 R23, R29). -/
theorem found_of_hdr {s : State} {h : Header} (hs : s.hdr = resultImage h) :
    s.found = true ↔ h ≠ .invalid := by
  simp only [State.found, State.hdrValid, hs]
  cases h with
  | invalid => simp [resultImage, ResultRegs.zero]
  | valid r => simp [resultImage, packFields_valid]

/-- The origin of an ADVANCE stands behind the previous header's offset (41 R175). -/
theorem offset_lt_advanceOrigin {s : State} (h : s.found = true) :
    s.hdr.offset.toNat < (advanceOrigin s).toNat := by
  obtain ⟨-, hfree, hframe⟩ := advanceOriginNeverWraps s
  by_cases hsize : s.hdr.frameSize = 0
  · rw [hfree h hsize]
    exact Nat.lt_succ_self _
  · have hpos : 0 < s.hdr.frameSize.toNat :=
      Nat.pos_of_ne_zero fun hzero => hsize (BitVec.eq_of_toNat_eq hzero)
    rw [hframe h hsize]
    omega

/-- Settles O54: the write, then the scan from the origin, which stands behind the previous header. -/
theorem advanceReturnsAStrictlyHigherOffset : Obligations.AdvanceReturnsAStrictlyHigherOffset := by
  intro s v hidle hop hin hlen
  obtain ⟨k, h, c, -, hres, hrun⟩ := run_accepted_scan (step_advance hin hidle hlen hop) hlen
  refine ⟨k, h, _, hres, hrun, rfl, rfl, rfl, rfl, fun hnone => ?_, fun hprev hfound => ?_⟩
  · have horigin : (advanceOrigin s).toNat = s.argEnd.toNat + 1 := (advanceOriginNeverWraps s).1 hnone
    rcases hres with ⟨o, r, hmin, hmax, -⟩ | ⟨rfl, -⟩
    · omega
    · rfl
  · have hvalid : h ≠ .invalid := (found_of_hdr rfl).mp hfound
    have horigin := offset_lt_advanceOrigin hprev
    rcases hres with ⟨o, r, hmin, -, hh, rfl, -⟩ | ⟨rfl, -⟩
    · obtain ⟨-, hoffset⟩ := headerAt_valid hh
      calc s.hdr.offset.toNat < (advanceOrigin s).toNat := horigin
        _ ≤ o := hmin
        _ = r.offset.toNat := hoffset.symm
    · exact absurd rfl hvalid

/-- Settles O55: the write, then the one turn of the FSM that finds the candidate at the origin. -/
theorem advanceLandsOnTheNextFrame : Obligations.AdvanceLandsOnTheNextFrame := by
  intro s v r hidle hop hin hlen hfound hsize hlim hh
  obtain ⟨-, -, horigin⟩ := advanceOriginNeverWraps s
  replace horigin := horigin hfound hsize
  rw [← horigin] at hlim hh
  have hturn : fsmStep (acceptScan (advanceOrigin s) s.argEnd { s with inputs := [] }) =
      .next (complete (.valid r) (acceptScan (advanceOrigin s) s.argEnd { s with inputs := [] })) :=
    fsmStep_found rfl hlim ((headerAt_congr rfl rfl (fun _ _ => rfl) _).trans hh)
  have hrun := (run_succ 1 (step_advance hin hidle hlen hop)).trans
    (run_succ 0 ((step_nil rfl).trans hturn))
  exact ⟨_, hrun, rfl, (headerAt_valid hh).2.trans horigin, rfl, rfl, rfl⟩

end Sys2Proof.Machine
end

section
/-!
PROOFS. The K-frame property (41 R176): one ADVANCE with its WAIT lands on the next frame or, behind the
last one, on `INVALID`; then induction over the ADVANCEs of the host program.
-/

namespace Sys2Proof.Machine

/-! ### A command whose scan ends at its first candidate -/

/-- The next turn of the FSM ends the scan with `h`: the cursor is past the limit, or at a valid
header. -/
def State.EndsScanWith (s : State) (h : Header) : Prop :=
  (s.lim.toNat < s.cur.toNat ∧ h = .invalid) ∨
    ∃ r, s.cur.toNat ≤ s.lim.toNat ∧ headerAt s s.cur.toNat = some (.valid r) ∧ h = .valid r

/-- How a scan ends depends on its cursor, its limit and the candidates' header values only. -/
theorem State.EndsScanWith.congr {s t : State} {h : Header} (hcur : t.cur = s.cur)
    (hlim : t.lim = s.lim) (hat : ∀ o, headerAt t o = headerAt s o) (hends : s.EndsScanWith h) :
    t.EndsScanWith h := by
  simpa only [State.EndsScanWith, hcur, hlim, hat] using hends

/-- Such a turn completes the command. -/
theorem State.EndsScanWith.fsmStep {s : State} {h : Header} (hends : s.EndsScanWith h)
    (hscan : s.fsm = .scan) : fsmStep s = .next (complete h s) := by
  rcases hends with ⟨hlim, rfl⟩ | ⟨r, hlim, hh, rfl⟩
  · exact fsmStep_past hscan hlim
  · exact fsmStep_found hscan hlim hh

/-- `t` is where a command of `s` has ended with the header `h`, with `rest` to come: BUF_LEN, the
parameters and the buffer are those of `s`. -/
structure State.CommandDone (s t : State) (h : Header) (rest : List Input) : Prop where
  inputs : t.inputs = rest
  idle : t.fsm = .idle
  done : t.done = true
  hdr : t.hdr = resultImage h
  params : t.params = s.params
  bufLen : t.bufLen = s.bufLen
  mem : t.mem = s.mem
  bufSize : t.bufSize = s.bufSize
  bufEpoch : t.bufEpoch = s.bufEpoch

/-- A WAIT for such a scan takes three steps: a poll, the turn of the FSM, and the last poll. -/
theorem run_wait_endsScan {s : State} {h : Header} {rest : List Input} (hin : s.inputs = .wait :: rest)
    (hscan : s.fsm = .scan) (hends : s.EndsScanWith h) :
    ∃ t, Host.Core.run Sys2Proof.core 3 s = .next t ∧ s.CommandDone t h rest := by
  have hbusy : s.fsm ≠ .idle := by rw [hscan]; exact nofun
  have hpolled : ({ s with rdata := s.statusWord } : State).EndsScanWith h :=
    hends.congr rfl rfl (headerAt_congr rfl rfl fun _ _ => rfl)
  have hrun := (run_poll_turn 1 hin hbusy (hpolled.fsmStep hscan)).trans
    (run_succ 0 (step_wait_idle hin rfl))
  exact ⟨_, hrun, rfl, rfl, rfl, rfl, rfl, rfl, rfl, rfl, rfl⟩

/-- The write to CMD of such a command comes before its WAIT. -/
theorem run_scanCommand {s : State} {c : Cursor} {l : Word} {h : Header} {rest : List Input}
    (hstep : step s = .next (acceptScan c l { s with inputs := .wait :: rest }))
    (hends : (acceptScan c l s).EndsScanWith h) :
    ∃ t, Host.Core.run Sys2Proof.core 4 s = .next t ∧ s.CommandDone t h rest := by
  obtain ⟨t, hrun, hdone⟩ := run_wait_endsScan rfl rfl
    (hends.congr (t := acceptScan c l { s with inputs := .wait :: rest }) rfl rfl
      (headerAt_congr rfl rfl fun _ _ => rfl))
  exact ⟨t, (run_succ 3 hstep).trans hrun, { hdone with }⟩

/-! ### Frames back to back -/

/-- Where the `k`-th of a list of frames stands: behind the frames before it. -/
theorem FramesFrom.offset_eq {s : State} {fs : List HeaderRecord} {o k : Nat} {r : HeaderRecord}
    (h : FramesFrom s o fs) (hk : fs[k]? = some r) :
    r.offset.toNat = o + ((fs.take k).map fun r => r.frameSize.toNat).sum := by
  induction fs generalizing o k with
  | nil => cases hk
  | cons r0 rs ih =>
    obtain ⟨hh, -, hbehind⟩ := h
    cases k with
    | zero =>
      cases hk
      exact (headerAt_valid hh).2
    | succ k =>
      rw [ih hbehind hk, List.take_succ_cons, List.map_cons, List.sum_cons, Nat.add_assoc]

/-- Frames back to back depend on the candidates' header values and the latched length only. -/
theorem FramesFrom.congr {s t : State} (hlen : t.len = s.len)
    (hat : ∀ o, headerAt t o = headerAt s o) {fs : List HeaderRecord} {o : Nat}
    (h : FramesFrom s o fs) : FramesFrom t o fs := by
  induction fs generalizing o with
  | nil => exact h.trans (congrArg BitVec.toNat hlen.symm)
  | cons r rs ih =>
    obtain ⟨hh, hsize, hbehind⟩ := h
    exact ⟨(hat o).trans hh, hsize, ih hbehind⟩

/-- A scan that begins at a frame ends there. -/
theorem FramesFrom.endsScanWith {s : State} {o : Nat} {r : HeaderRecord} {rs : List HeaderRecord}
    {c : Cursor} {e : Word} (h : FramesFrom { s with len := s.bufLen } o (r :: rs)) (hc : c.toNat = o)
    (he : e.toNat + 1 = s.bufLen.toNat) : (acceptScan c e s).EndsScanWith (.valid r) := by
  obtain ⟨hh, -⟩ := h
  have hinside : o + 4 ≤ s.bufLen.toNat := (headerAt_valid hh).1
  subst hc
  refine .inr ⟨r, ?_, (headerAt_congr rfl rfl (fun _ _ => rfl) _).trans hh, rfl⟩
  simp only [acceptScan_cur, acceptScan_lim]
  omega

/-- Between two commands of 41 R176: the result header is that of `r`, and at its offset stand `r` and
behind it the frames `rs`, to the end of BUF_LEN. -/
structure State.AtFrame (s : State) (r : HeaderRecord) (rs : List HeaderRecord) : Prop where
  idle : s.fsm = .idle
  covered : s.bufLen.toNat ≤ s.bufSize.toNat
  hdr : s.hdr = resultImage (.valid r)
  frames : FramesFrom { s with len := s.bufLen } r.offset.toNat (r :: rs)

/-- A command that ends with the header of a frame leaves the machine at that frame. -/
theorem State.CommandDone.atFrame {s t : State} {o : Nat} {r : HeaderRecord} {rs : List HeaderRecord}
    {rest : List Input} (h : s.CommandDone t (.valid r) rest)
    (hlen : s.bufLen.toNat ≤ s.bufSize.toNat)
    (hframes : FramesFrom { s with len := s.bufLen } o (r :: rs)) : t.AtFrame r rs where
  idle := h.idle
  covered := by rw [h.bufLen, h.bufSize]; exact hlen
  hdr := h.hdr
  frames := by
    rw [(headerAt_valid hframes.1).2]
    refine FramesFrom.congr ?_ (headerAt_congr ?_ ?_ fun o _ => memRead_congr ?_ ?_ ?_ o) hframes
    exacts [h.bufLen, h.params, h.bufLen, h.mem, h.bufSize, h.bufEpoch]

/-! ### One ADVANCE with its WAIT -/

/-- What the host does for `k` ADVANCEs up to `e` (30 R99). -/
def advances (e : Word) (k : Nat) : List Input :=
  inputsOfProgram (List.replicate k (expandPseudo (.advance e))).flatten

theorem advances_succ (e : Word) (k : Nat) :
    advances e (k + 1) =
      .write Reg.argEnd.offset 32 e :: .write 0x00 32 3 :: .wait :: advances e k := rfl

/-- The origin of an ADVANCE behind a valid header does not depend on ARG_END (41 R164). -/
theorem advanceOrigin_of_found {s : State} (h : s.found = true) (e : Word) (ins : List Input) :
    advanceOrigin { s with argEnd := e, inputs := ins } = advanceOrigin s := by
  have hvalid : ¬s.hdrValid = false := ne_false_of_eq_true h
  exact (if_neg hvalid).trans (if_neg hvalid).symm

section
variable {s : State} {e : Word} {r : HeaderRecord} {rs : List HeaderRecord} {rest : List Input}
  (hin : s.inputs = .write Reg.argEnd.offset 32 e :: .write 0x00 32 3 :: .wait :: rest)
  (he : e.toNat + 1 = s.bufLen.toNat)
include hin

/-- An ADVANCE from a frame that ends at its first candidate: the write to ARG_END, the write to CMD and
the WAIT. -/
theorem State.AtFrame.run_advance (h : s.AtFrame r rs) {hd : Header}
    (hends : (acceptScan (advanceOrigin s) e s).EndsScanWith hd) :
    ∃ t, Host.Core.run Sys2Proof.core 5 s = .next t ∧ s.CommandDone t hd rest := by
  have hstep := step_advance (s := { s with argEnd := e, inputs := .write 0x00 32 3 :: .wait :: rest })
    rfl h.idle h.covered rfl
  rw [advanceOrigin_of_found ((found_of_hdr h.hdr).mpr nofun)] at hstep
  obtain ⟨t, hrun, hdone⟩ := run_scanCommand hstep
    (hends.congr rfl rfl (headerAt_congr rfl rfl fun _ _ => rfl))
  exact ⟨t, (run_succ 4 (step_write .argEnd nofun hin)).trans hrun, { hdone with }⟩

omit hin in
/-- From a frame an ADVANCE begins right behind it (41 R164). -/
theorem State.AtFrame.advanceOrigin_eq (h : s.AtFrame r rs) :
    (advanceOrigin s).toNat = r.offset.toNat + r.frameSize.toNat := by
  obtain ⟨-, hsize, -⟩ := h.frames
  obtain ⟨-, -, horigin⟩ := advanceOriginNeverWraps s
  rw [h.hdr] at horigin
  exact horigin (packFields_valid r) hsize

include he

/-- An ADVANCE from a frame with another behind it leads to that frame. -/
theorem State.AtFrame.advance_next {r' : HeaderRecord} (h : s.AtFrame r (r' :: rs)) :
    ∃ t, Host.Core.run Sys2Proof.core 5 s = .next t ∧ s.CommandDone t (.valid r') rest ∧
      t.AtFrame r' rs := by
  obtain ⟨-, -, hbehind⟩ := h.frames
  obtain ⟨t, hrun, hdone⟩ := h.run_advance hin (hbehind.endsScanWith h.advanceOrigin_eq he)
  exact ⟨t, hrun, hdone, hdone.atFrame h.covered hbehind⟩

/-- An ADVANCE from the last frame ends with `INVALID`. -/
theorem State.AtFrame.advance_last (h : s.AtFrame r []) :
    ∃ t, Host.Core.run Sys2Proof.core 5 s = .next t ∧ s.CommandDone t .invalid rest := by
  obtain ⟨-, -, hend⟩ := h.frames
  have horigin : (advanceOrigin s).toNat = s.bufLen.toNat := h.advanceOrigin_eq.trans hend
  refine h.run_advance hin (.inl ⟨?_, rfl⟩)
  simp only [acceptScan_cur, acceptScan_lim]
  omega

end

/-! ### The whole program -/

/-- The header that `k` ADVANCEs lead to from the first of the frames `fs`: the `k`-th frame's, or
`INVALID` behind the last. -/
def frameAfter (fs : List HeaderRecord) (k : Nat) : Header :=
  match fs[k]? with
  | some r => .valid r
  | none => .invalid

/-- The `k` ADVANCEs from the frame the machine is at, by induction on `k`. -/
theorem State.AtFrame.run_advances {s : State} {e : Word} {r : HeaderRecord} {rs : List HeaderRecord}
    {k : Nat} (h : s.AtFrame r rs) (hdone : s.done = true) (he : e.toNat + 1 = s.bufLen.toNat)
    (hk : k ≤ rs.length + 1) (hin : s.inputs = advances e k) :
    ∃ n t, Host.Core.run Sys2Proof.core n s = .next t ∧
      s.CommandDone t (frameAfter (r :: rs) k) [] := by
  induction k generalizing s r rs with
  | zero => exact ⟨0, s, rfl, hin, h.idle, hdone, h.hdr, rfl, rfl, rfl, rfl, rfl⟩
  | succ k ih =>
    cases rs with
    | nil =>
      obtain rfl : k = 0 := by simpa using hk
      obtain ⟨t, hrun, hend⟩ := h.advance_last hin he
      exact ⟨5, t, hrun, hend⟩
    | cons r' rs =>
      obtain ⟨t, hrun, ht, hnext⟩ := h.advance_next hin he
      obtain ⟨n, u, hrest, hu⟩ := ih hnext ht.done (by rw [ht.bufLen]; exact he)
        (Nat.le_of_succ_le_succ hk) ht.inputs
      exact ⟨5 + n, u, (run_add 5 n hrun).trans hrest, hu.inputs, hu.idle, hu.done, hu.hdr,
        hu.params.trans ht.params, hu.bufLen.trans ht.bufLen, hu.mem.trans ht.mem,
        hu.bufSize.trans ht.bufSize, hu.bufEpoch.trans ht.bufEpoch⟩

/-- `LOCATE 0, e` with its WAIT leads to the first frame: the writes to both arguments, the write to CMD
and the WAIT. -/
theorem run_locate_frames {s : State} {e : Word} {r : HeaderRecord} {rs : List HeaderRecord}
    {rest : List Input} (hidle : s.fsm = .idle) (hlen : s.bufLen.toNat ≤ s.bufSize.toNat)
    (hframes : FramesFrom { s with len := s.bufLen } 0 (r :: rs)) (he : e.toNat + 1 = s.bufLen.toNat)
    (hin : s.inputs = inputsOfProgram (expandPseudo (.locate 0 e)) ++ rest) :
    ∃ t, Host.Core.run Sys2Proof.core 6 s = .next t ∧ s.CommandDone t (.valid r) rest := by
  have hstep := step_locate
    (s := { s with argStart := 0, argEnd := e, inputs := .write 0x00 32 2 :: .wait :: rest })
    rfl hidle hlen rfl
  have hends : (acceptScan ((0 : Word).setWidth 33) e s).EndsScanWith (.valid r) :=
    hframes.endsScanWith rfl he
  obtain ⟨t, hrun, hdone⟩ := run_scanCommand hstep
    (hends.congr rfl rfl (headerAt_congr rfl rfl fun _ _ => rfl))
  exact ⟨t, (run_succ 5 (step_write .argStart nofun hin)).trans
    ((run_succ 4 (step_write .argEnd nofun rfl)).trans hrun), { hdone with }⟩

/-- Settles O56: LOCATE leads to the first frame, and the ADVANCEs on from there. -/
theorem kFramesAreFoundInOrderThenInvalid : Obligations.KFramesAreFoundInOrderThenInvalid := by
  intro s fs k hidle hlen hne hframes hk hin
  obtain ⟨r, rs, rfl⟩ := List.exists_cons_of_ne_nil hne
  have he : (s.bufLen - 1).toNat + 1 = s.bufLen.toNat := by
    obtain ⟨hinside, -⟩ := headerAt_valid hframes.1
    have hone : (1 : Word).toNat = 1 := rfl
    rw [BitVec.toNat_sub_of_le] <;> bv_omega
  have hin : s.inputs = inputsOfProgram (expandPseudo (.locate 0 (s.bufLen - 1))) ++
      advances (s.bufLen - 1) k := hin
  obtain ⟨t, hrun, ht⟩ := run_locate_frames hidle hlen hframes he hin
  obtain ⟨n, u, hrest, hu⟩ := (ht.atFrame hlen hframes).run_advances ht.done
    (by rw [ht.bufLen]; exact he) hk ht.inputs
  refine ⟨6 + n, u, (run_add 6 n hrun).trans hrest, hu.inputs, hu.idle, hu.done,
    fun r' hr' => ?_, fun hlast => ?_⟩
  · have hhdr : u.hdr = resultImage (.valid r') := by rw [hu.hdr, frameAfter, hr']
    refine ⟨hhdr, (found_of_hdr hhdr).mpr nofun, ?_⟩
    rw [hhdr, ← Nat.zero_add (List.sum _)]
    exact hframes.offset_eq hr'
  · have hhdr : u.hdr = resultImage .invalid := by
      rw [hu.hdr, frameAfter, List.getElem?_eq_none hlast.ge]
    exact ⟨hhdr, by rw [← Bool.not_eq_true, found_of_hdr hhdr]; exact not_not.mpr rfl⟩

end Sys2Proof.Machine
end

section
/-!
PROOFS. Independence of a running command (41 R177): the host's accesses leave it alone, and an FSM step
looks at nothing but the tables, the latched values and the bytes below the latched length.
-/

namespace Sys2Proof.Machine

/-! ### The host's accesses -/

/-- While a command runs, a host write is a rejection or a plain register write (41 R161). -/
theorem hostWrite_busy {offset width : Nat} {v : Word} {s t : State} (hbusy : s.fsm ≠ .idle)
    (h : hostWrite offset width v s = .next t) : t = reject s ∨ ∃ r, t = writeReg r v s := by
  rcases hostWrite_next h with ⟨-, -, rfl⟩ | ⟨-, -, hidle, -⟩ | ⟨-, -, hidle, -⟩ | ⟨r, -, -, rfl⟩
  · exact .inl rfl
  · exact absurd hidle hbusy
  · exact absurd hidle hbusy
  · exact .inr ⟨r, rfl⟩

/-- Settles O49: a rejection, a register write, a read and a poll write none of the command's state. -/
theorem hostAccessesLeaveARunningCommandAlone :
    Obligations.HostAccessesLeaveARunningCommandAlone := by
  intro s t e rest hbusy hin haccess hstep
  obtain ⟨-, -, hbytes⟩ : t.mem = s.mem ∧ t.bufSize = s.bufSize ∧ ∀ o, memRead t o = memRead s o := by
    refine onlyTheLoaderChangesTheBuffer s t hstep ?_ ?_ <;>
      rcases haccess with ⟨_, _, _, rfl⟩ | ⟨_, _, rfl⟩ | rfl <;> simp [hin]
  rw [step_cons hin] at hstep
  rcases haccess with ⟨offset, width, v, rfl⟩ | ⟨offset, width, rfl⟩ | rfl
  · rcases hostWrite_busy (s := { s with inputs := rest }) hbusy hstep with rfl | ⟨r, rfl⟩
    · exact ⟨rfl, rfl, rfl, rfl, rfl, rfl, rfl, rfl, hbytes⟩
    · obtain ⟨hparams, hhdr, htag, hdone, hfsm, hcur, hlim, hlen, -⟩ :=
        writeReg_frame r v { s with inputs := rest }
      exact ⟨hfsm, hcur, hlim, hlen, hhdr, htag, hdone, hparams, hbytes⟩
  · simp only [handleInput, hostRead] at hstep
    split at hstep <;> cases hstep
    exact ⟨rfl, rfl, rfl, rfl, rfl, rfl, rfl, rfl, hbytes⟩
  · simp only [handleInput, hostPoll] at hstep
    split at hstep <;> cases hstep <;> exact ⟨rfl, rfl, rfl, rfl, rfl, rfl, rfl, rfl, hbytes⟩

/-! ### What an FSM step looks at -/

/-- The two states agree on the tables, the latched values and the bytes below the latched length. -/
structure State.SameLatched (s s' : State) : Prop where
  params : s'.params = s.params
  fsm : s'.fsm = s.fsm
  cur : s'.cur = s.cur
  lim : s'.lim = s.lim
  len : s'.len = s.len
  bytes : ∀ o, o < s.len.toNat → memRead s' o = memRead s o

/-- The tag size depends on the latched length and the bytes below it only. -/
theorem tagSizeOf_congr {s t : State} (hl : t.len = s.len)
    (hm : ∀ o, o < s.len.toNat → memRead t o = memRead s o) : tagSizeOf t = tagSizeOf s := by
  unfold tagSizeOf
  rw [hl]
  split
  · rfl
  · rw [hm 0 (by omega), hm 1 (by omega), hm 2 (by omega), hm 5 (by omega), hm 6 (by omega),
      hm 7 (by omega), hm 8 (by omega), hm 9 (by omega)]

/-- Within the limit a candidate without a header value is one whose bytes the buffer does not hold, and
the FSM's turn is refused (70 R230). -/
theorem fsmStep_unread {s : State} (hscan : s.fsm = .scan) (hlim : s.cur.toNat ≤ s.lim.toNat)
    (hh : headerAt s s.cur.toNat = none) : fsmStep s = .refused .outsideBuffer := by
  have hpast : pastLimit s = false := decide_eq_false (Nat.not_lt.mpr hlim)
  unfold headerAt at hh
  split at hh
  · cases hh
  · rename_i hlen
    split at hh
    · cases hh
    · rename_i hread
      simp [fsmStep, hscan, hpast, hlen, hread]

/-- A turn of the FSM in SCAN that answers a next state completes the scan past its limit or at a valid
header, or moves on over an invalid one. -/
theorem fsmStep_scan_next {s t : State} (hscan : s.fsm = .scan) (h : fsmStep s = .next t) :
    (s.lim.toNat < s.cur.toNat ∧ t = complete .invalid s) ∨
    (s.cur.toNat ≤ s.lim.toNat ∧ ∃ r, headerAt s s.cur.toNat = some (.valid r) ∧
      t = complete (.valid r) s) ∨
    (s.cur.toNat ≤ s.lim.toNat ∧ headerAt s s.cur.toNat = some .invalid ∧
      t = { s with cur := s.cur + 1 }) := by
  by_cases hlim : s.lim.toNat < s.cur.toNat
  · rw [fsmStep_past hscan hlim] at h
    cases h
    exact .inl ⟨hlim, rfl⟩
  have hlim := Nat.not_lt.mp hlim
  rcases hh : headerAt s s.cur.toNat with _ | _ | r
  · rw [fsmStep_unread hscan hlim hh] at h
    cases h
  · rw [fsmStep_moveOn hscan hlim hh] at h
    cases h
    exact .inr (.inr ⟨hlim, rfl, rfl⟩)
  · rw [fsmStep_found hscan hlim hh] at h
    cases h
    exact .inr (.inl ⟨hlim, r, rfl, rfl⟩)

/-- States that agree on what is latched take turns of the FSM that agree on it, with one result. -/
theorem State.SameLatched.fsmStep {s s' t : State} (h : s.SameLatched s') (hbusy : s.fsm ≠ .idle)
    (ht : fsmStep s = .next t) :
    ∃ t', fsmStep s' = .next t' ∧ t'.fsm = t.fsm ∧ t'.cur = t.cur ∧
      (s.fsm = .scan → t.fsm = .idle → t'.hdr = t.hdr) ∧ (s.fsm = .tag → t'.tagSize = t.tagSize) ∧
      (t.fsm = .idle → t'.done = t.done) := by
  obtain ⟨hparams, hfsm, hcur, hlim, hlen, hbytes⟩ := h
  cases hf : s.fsm with
  | idle => exact absurd hf hbusy
  | tag =>
    rcases fsmStep_next ht with ⟨hidle, -⟩ | ⟨-, v, hv, rfl⟩ | ⟨hscan, -⟩
    · exact absurd hidle hbusy
    · refine ⟨_, fsmStep_tag (hfsm.trans hf) ((tagSizeOf_congr hlen hbytes).trans hv), rfl, hcur,
        nofun, fun _ => rfl, fun _ => rfl⟩
    · exact nomatch hf.symm.trans hscan
  | scan =>
    have hf' : s'.fsm = .scan := hfsm.trans hf
    have hat : headerAt s' s'.cur.toNat = headerAt s s.cur.toNat := by
      rw [hcur, headerAt_congr hparams hlen hbytes]
    rcases fsmStep_scan_next hf ht with ⟨hpast, rfl⟩ | ⟨hwithin, r, hh, rfl⟩ | ⟨hwithin, hh, rfl⟩
    · exact ⟨_, fsmStep_past hf' (by rwa [hlim, hcur]), rfl, hcur, fun _ _ => rfl, nofun,
        fun _ => rfl⟩
    · exact ⟨_, fsmStep_found hf' (by rwa [hlim, hcur]) (hat.trans hh), rfl, hcur, fun _ _ => rfl,
        nofun, fun _ => rfl⟩
    · exact ⟨_, fsmStep_moveOn hf' (by rwa [hlim, hcur]) (hat.trans hh), hfsm,
        congrArg (· + 1) hcur, fun _ hidle => absurd hidle hbusy, nofun,
        fun hidle => absurd hidle hbusy⟩

/-- A turn of the FSM keeps every byte of the buffer (20 R60). -/
theorem fsmStep_memRead {s t : State} (h : fsmStep s = .next t) (o : Nat) :
    memRead t o = memRead s o := by
  obtain ⟨-, -, -, -, -, -, -, hmem, hsize, hepoch, -, -⟩ := fsmStep_frame h
  exact memRead_congr hmem hsize hepoch o

/-- Settles O50: at its turn each state takes a step of the FSM, and the two agree. -/
theorem fsmStepDependsOnlyOnWhatWasLatched : Obligations.FsmStepDependsOnlyOnWhatWasLatched := by
  intro s s' t hparams hfsm hcur hlim hlen hbusy hturn hturn' hbytes ht
  rw [step_fsmTurn hturn] at ht
  have hsame : State.SameLatched { s with inputs := s.inputs.tail }
      { s' with inputs := s'.inputs.tail } := ⟨hparams, hfsm, hcur, hlim, hlen, hbytes⟩
  obtain ⟨t', ht', hfsm', hcur', hhdr, htag, hdone⟩ := hsame.fsmStep hbusy ht
  obtain ⟨hp, -, -, -, -, hl, hn, -⟩ := fsmStep_frame ht
  obtain ⟨hp', -, -, -, -, hl', hn', -, -, -, hin', -⟩ := fsmStep_frame ht'
  refine ⟨t', (step_fsmTurn hturn').trans ht', hfsm', hcur', (hl'.trans hlim).trans hl.symm,
    (hn'.trans hlen).trans hn.symm, (hp'.trans hparams).trans hp.symm, fun o ho => ?_, hhdr, htag,
    hdone, hin'⟩
  rw [hn] at ho
  calc memRead t' o = memRead s' o := fsmStep_memRead ht' o
    _ = memRead s o := hbytes o ho
    _ = memRead t o := (fsmStep_memRead ht o).symm

end Sys2Proof.Machine
end

section
/-!
PROOFS. The ID3v2 tag size: the synchsafe number and what 42 R190 adds to it (42 R190, R193 to R195),
the tag step (42 R192) and TAGSIZE as a whole.
-/

namespace Sys2Proof.Machine

/-! ### The size and the footer flag -/

/-- Dropping bit 7 of a byte leaves its value modulo 128. -/
theorem toNat_and_lowSeven (b : Byte) : (b &&& 0x7F).toNat = b.toNat % 128 :=
  (BitVec.toNat_and ..).trans (Nat.and_two_pow_sub_one_eq_mod b.toNat 7)

/-- Settles O15: each digit is its byte modulo 128. -/
theorem synchsafeIsBase128OfTheLowSevenBits : Obligations.SynchsafeIsBase128OfTheLowSevenBits := by
  intro b6 b7 b8 b9
  refine ⟨?_, synchsafe_le b6 b7 b8 b9⟩
  simp only [synchsafe, toNat_and_lowSeven, Nat.reducePow]

/-- The mask 0x10 selects bit 4, the footer flag (42 R195). -/
theorem and_footerMask_eq_iff (flags : Byte) : flags &&& 0x10 = 0x10 ↔ flags.getLsbD 4 = true := by
  have hmask : flags &&& 0x10 = if flags.getLsbD 4 then 0x10 else 0 := BitVec.and_twoPow flags 4
  rw [hmask]
  cases flags.getLsbD 4 <;> decide

/-- A synchsafe number with its header, and perhaps a footer, fits in TAG_SIZE. -/
theorem toNat_ofNat_synchsafe_add (b6 b7 b8 b9 : Byte) {n : Nat} (hn : n ≤ 20) :
    (BitVec.ofNat 32 (synchsafe b6 b7 b8 b9 + n)).toNat = synchsafe b6 b7 b8 b9 + n := by
  have hsize := synchsafe_le b6 b7 b8 b9
  exact (BitVec.toNat_ofNat ..).trans (Nat.mod_eq_of_lt (by omega))

/-- Without the magic the tag size is 0 (42 R190). -/
theorem tagSizeOfPrefix_of_not_magic {b0 b1 b2 : Byte} (flags b6 b7 b8 b9 : Byte)
    (h : ¬(b0 = 0x49 ∧ b1 = 0x44 ∧ b2 = 0x33)) :
    tagSizeOfPrefix b0 b1 b2 flags b6 b7 b8 b9 = 0 :=
  if_pos (by simpa only [not_and_or] using h)

/-- Behind the magic the tag size is the synchsafe size with the header and, if flagged, the footer
(42 R190). -/
theorem tagSizeOfPrefix_magic (flags b6 b7 b8 b9 : Byte) :
    tagSizeOfPrefix 0x49 0x44 0x33 flags b6 b7 b8 b9 =
      BitVec.ofNat 32 (synchsafe b6 b7 b8 b9 + if flags &&& 0x10 = 0x10 then 20 else 10) := by
  rw [tagSizeOfPrefix, if_neg (by decide)]
  by_cases hfooter : flags.getLsbD 4 = true
  · rw [if_pos hfooter, if_pos ((and_footerMask_eq_iff flags).mpr hfooter)]
  · rw [if_neg hfooter, if_neg (mt (and_footerMask_eq_iff flags).mp hfooter)]

/-- Settles O16: without the magic the size is 0, and with it no sum wraps. -/
theorem tagSizeOfAPrefixIsSizePlusHeaders : Obligations.TagSizeOfAPrefixIsSizePlusHeaders := by
  intro b0 b1 b2 flags b6 b7 b8 b9
  refine ⟨?_, tagSizeOfPrefix_le ..⟩
  by_cases hmagic : b0 = 0x49 ∧ b1 = 0x44 ∧ b2 = 0x33
  · rw [if_pos hmagic]
    obtain ⟨rfl, rfl, rfl⟩ := hmagic
    rw [tagSizeOfPrefix_magic]
    exact toNat_ofNat_synchsafe_add b6 b7 b8 b9 (by split_ifs <;> decide)
  · rw [if_neg hmagic, tagSizeOfPrefix_of_not_magic flags b6 b7 b8 b9 hmagic]
    rfl

/-! ### The tag step and the whole command -/

/-- A buffer shorter than 10 bytes has the tag size 0, and no byte of it is read (42 R191). -/
theorem tagSizeOf_short {s : State} (h : s.len.toNat < 10) : tagSizeOf s = some 0 := if_pos h

/-- The tag size of at least 10 bytes is that of the first 10 (42 R190). -/
theorem tagSizeOf_bytes {s : State} {b : Fin 10 → Byte} (h : 10 ≤ s.len.toNat)
    (hb : ∀ k : Fin 10, memRead s k.val = some (b k)) :
    tagSizeOf s = some (tagSizeOfPrefix (b 0) (b 1) (b 2) (b 5) (b 6) (b 7) (b 8) (b 9)) := by
  rw [tagSizeOf, if_neg (Nat.not_lt.mpr h), show memRead s 0 = _ from hb 0,
    show memRead s 1 = _ from hb 1, show memRead s 2 = _ from hb 2, show memRead s 5 = _ from hb 5,
    show memRead s 6 = _ from hb 6, show memRead s 7 = _ from hb 7, show memRead s 8 = _ from hb 8,
    show memRead s 9 = _ from hb 9]

/-- At the FSM's turn the machine's step in TAG is the tag step (42 R192). -/
theorem step_tagTurn {s : State} {v : Word} (htag : s.fsm = .tag) (hturn : s.fsmTurn)
    (hv : tagSizeOf s = some v) :
    step s = .next (completeTag v { s with inputs := s.inputs.tail }) :=
  (step_fsmTurn hturn).trans <|
    fsmStep_tag htag ((tagSizeOf_congr rfl fun o _ => memRead_congr rfl rfl rfl o).trans hv)

/-- Settles O30: the tag step with the two values that the tag size can have. -/
theorem tagStepWritesOnlyTagSize : Obligations.TagStepWritesOnlyTagSize := by
  intro s htag hturn
  exact ⟨fun hshort => step_tagTurn htag hturn (tagSizeOf_short hshort),
    fun b hlong hb => step_tagTurn htag hturn (tagSizeOf_bytes hlong hb)⟩

/-- Settles O58: the write latches BUF_LEN and enters TAG, and the FSM's turn, with no event left, is the
tag step over what was latched. -/
theorem tagsizeMeasuresTheLeadingTag : Obligations.TagsizeMeasuresTheLeadingTag := by
  intro s v b hidle hunit hop hin hlen hb
  have hwrite : step s = .next (acceptTag { s with inputs := [] }) :=
    step_tagsize hin hidle hlen hop hunit
  obtain ⟨hshortTurn, hlongTurn⟩ :=
    tagStepWritesOnlyTagSize (acceptTag { s with inputs := [] }) rfl (.inl rfl)
  rw [run_succ 1 hwrite]
  by_cases hshort : s.bufLen.toNat < 10
  · rw [run_succ 0 (hshortTurn hshort), if_pos hshort]
    rfl
  · have hlong := Nat.not_lt.mp hshort
    have hread : ∀ k : Fin 10, memRead (acceptTag { s with inputs := [] }) k.val = some (b k) :=
      fun k => (memRead_congr rfl rfl rfl k.val).trans (hb hlong k)
    rw [run_succ 0 (hlongTurn b hlong hread), if_neg hshort]
    rfl

end Sys2Proof.Machine
end

section
/-!
PROOFS. What a step does to CMDERR (60 R204) and to DONE (60 R205): for each flag the rules of the moves
that reach it, then the kinds of step that can change it, from which the obligations follow.
-/

namespace Sys2Proof.Machine

/-! ### CMDERR -/

/-- A host write reaches CMDERR only at CMD, where it may set it, and at STATUS (10 R23, 60 R204). -/
theorem hostWrite_cmdErr {offset width : Nat} {v : Word} {s t : State}
    (h : hostWrite offset width v s = .next t) :
    t.cmdErr = s.cmdErr ∨ (offset = 0x00 ∧ width = 32 ∧ t.cmdErr = true) ∨
      (offset = 0x04 ∧ width = 32 ∧ t.cmdErr = cmdErrAfterWrite v s.cmdErr) := by
  rcases hostWrite_next h with
    ⟨ho, hw, rfl⟩ | ⟨-, -, -, -, c, l, rfl, -⟩ | ⟨-, -, -, -, -, rfl⟩ | ⟨r, -, hreg, rfl⟩
  · exact .inr (.inl ⟨ho, hw, rfl⟩)
  · exact .inl rfl
  · exact .inl rfl
  · by_cases hr : r = .status
    · subst hr
      obtain ⟨ho, hw⟩ := regAt_eq_status hreg
      exact .inr (.inr ⟨ho, hw, rfl⟩)
    · exact .inl (writeReg_cmdErr r v s hr)

/-- A step keeps CMDERR, but for reset, a write to CMD and a write to STATUS. -/
theorem step_cmdErr {s t : State} (hstep : step s = .next t) :
    t.cmdErr = s.cmdErr ∨
    (∃ rest, s.inputs = .reset :: rest ∧ t.cmdErr = false) ∨
    (∃ v rest, s.inputs = .write 0x00 32 v :: rest ∧ t.cmdErr = true) ∨
    (∃ v rest, s.inputs = .write 0x04 32 v :: rest ∧ t.cmdErr = cmdErrAfterWrite v s.cmdErr) := by
  rcases step_next hstep with hturn | ⟨o, width, v, rest, hin, hw⟩ |
    ⟨o, width, rest, v, -, rfl⟩ | ⟨rest, ins, v, -, rfl⟩ | ⟨rest, hin, rfl⟩ |
    ⟨size, rest, -, rfl⟩ | ⟨o, b, rest, -, -, rfl⟩
  · obtain ⟨-, ins, hfsm⟩ := fsmStep_of_turn hturn
    obtain ⟨-, -, -, -, hcmdErr, -⟩ := fsmStep_frame hfsm
    exact .inl hcmdErr
  · rcases hostWrite_cmdErr hw with he | ⟨rfl, rfl, he⟩ | ⟨rfl, rfl, he⟩
    · exact .inl he
    · exact .inr (.inr (.inl ⟨v, rest, hin, he⟩))
    · exact .inr (.inr (.inr ⟨v, rest, hin, he⟩))
  · exact .inl rfl
  · exact .inl rfl
  · exact .inr (.inl ⟨rest, hin, rfl⟩)
  · exact .inl rfl
  · exact .inl rfl

/-- A write to STATUS that clears CMDERR has bit 3 set (10 R23). -/
theorem getLsbD_of_cmdErrAfterWrite {v : Word} (h : cmdErrAfterWrite v true = false) :
    v.getLsbD 3 = true := by
  simpa [cmdErrAfterWrite] using h

/-- No write to STATUS sets CMDERR (10 R23). -/
theorem cmdErrAfterWrite_false (v : Word) : cmdErrAfterWrite v false = false := by
  simp only [cmdErrAfterWrite, ite_self]

/-- Settles O44: of the three kinds of step that reach CMDERR only reset and a write to STATUS can clear
it, and only a write to CMD can set it. -/
theorem cmdErrIsSticky : Obligations.CmdErrIsSticky := by
  intro s t hstep
  refine ⟨fun hs ht => ?_, fun hs ht => ?_⟩ <;>
    rcases step_cmdErr hstep with
      he | ⟨rest, hin, he⟩ | ⟨v, rest, hin, he⟩ | ⟨v, rest, hin, he⟩ <;>
    rw [ht] at he
  · exact nomatch he.trans hs
  · exact .inl ⟨rest, hin⟩
  · cases he
  · rw [hs] at he
    exact .inr ⟨v, rest, hin, getLsbD_of_cmdErrAfterWrite he.symm⟩
  · exact nomatch he.trans hs
  · cases he
  · exact ⟨v, rest, hin⟩
  · rw [hs, cmdErrAfterWrite_false] at he
    cases he

/-! ### DONE -/

/-- A turn of the FSM keeps DONE, unless it completes a command (41 R170, 42 R192). -/
theorem fsmStep_done {s t : State} (h : fsmStep s = .next t) :
    t.done = s.done ∨ (s.fsm ≠ .idle ∧ t.fsm = .idle ∧ t.done = true) := by
  rcases fsmStep_next h with ⟨-, rfl⟩ | ⟨htag, v, -, rfl⟩ | ⟨hscan, hd, rfl, -⟩
  · exact .inl rfl
  · exact .inr ⟨by simp [htag], rfl, rfl⟩
  · have hbusy : s.fsm ≠ .idle := by simp [hscan]
    rcases scanStep_cases hd s with ⟨-, he⟩ | ⟨-, r, -, he⟩ | ⟨-, -, he⟩ <;> rw [he]
    · exact .inr ⟨hbusy, rfl, rfl⟩
    · exact .inr ⟨hbusy, rfl, rfl⟩
    · exact .inl rfl

/-- A host write keeps DONE, unless it is the acceptance of a command (41 R160). -/
theorem hostWrite_done {offset width : Nat} {v : Word} {s t : State}
    (h : hostWrite offset width v s = .next t) :
    t.done = s.done ∨
      (offset = 0x00 ∧ width = 32 ∧ s.fsm = .idle ∧ t.fsm ≠ .idle ∧ t.done = false) := by
  rcases hostWrite_next h with
    ⟨-, -, rfl⟩ | ⟨ho, hw, hidle, -, c, l, rfl, -⟩ | ⟨ho, hw, hidle, -, -, rfl⟩ | ⟨r, -, -, rfl⟩
  · exact .inl rfl
  · exact .inr ⟨ho, hw, hidle, nofun, rfl⟩
  · exact .inr ⟨ho, hw, hidle, nofun, rfl⟩
  · obtain ⟨-, -, -, hdone, -⟩ := writeReg_frame r v s
    exact .inl hdone

/-- A step keeps DONE, but for the completion of a command, the acceptance of one, and reset. -/
theorem step_done {s t : State} (hstep : step s = .next t) :
    t.done = s.done ∨
    (s.fsm ≠ .idle ∧ t.fsm = .idle ∧ t.done = true) ∨
    (s.fsm = .idle ∧ t.fsm ≠ .idle ∧ t.done = false ∧
      ∃ v rest, s.inputs = .write 0x00 32 v :: rest) ∨
    (t.done = false ∧ ∃ rest, s.inputs = .reset :: rest) := by
  rcases step_next hstep with hturn | ⟨o, width, v, rest, hin, hw⟩ |
    ⟨o, width, rest, v, -, rfl⟩ | ⟨rest, ins, v, -, rfl⟩ | ⟨rest, hin, rfl⟩ |
    ⟨size, rest, -, rfl⟩ | ⟨o, b, rest, -, -, rfl⟩
  · obtain ⟨-, ins, hfsm⟩ := fsmStep_of_turn hturn
    exact (fsmStep_done hfsm).imp_right .inl
  · rcases hostWrite_done hw with he | ⟨rfl, rfl, hidle, hbusy, he⟩
    · exact .inl he
    · exact .inr (.inr (.inl ⟨hidle, hbusy, he, v, rest, hin⟩))
  · exact .inl rfl
  · exact .inl rfl
  · exact .inr (.inr (.inr ⟨rfl, rest, hin⟩))
  · exact .inl rfl
  · exact .inl rfl

/-- Settles O46: of the three kinds of step that reach DONE only a completion raises the level, and an
acceptance and reset lower it. -/
theorem doneRisesAtCompletionAndFallsAtAcceptance :
    Obligations.DoneRisesAtCompletionAndFallsAtAcceptance := by
  intro s t hstep
  unfold State.doneLevel
  refine ⟨fun hs ht => ?_, fun hs ht => ?_⟩ <;>
    rcases step_done hstep with
      he | ⟨hbusy, hidle, he⟩ | ⟨hidle, hbusy, he, hin⟩ | ⟨he, hin⟩ <;>
    rw [ht] at he
  · exact nomatch he.trans hs
  · exact ⟨hbusy, hidle⟩
  · cases he
  · cases he
  · exact nomatch he.trans hs
  · cases he
  · exact .inr ⟨hidle, hbusy, hin⟩
  · exact .inl hin

end Sys2Proof.Machine
end

section
/-!
PROOFS. When the machine answers a next state (60 R200): every instruction but an acceptance with
BUF_LEN above the buffer's size, and every event of a host that keeps its duties (70 R222, R230).
-/

namespace Sys2Proof.Machine

/-! ### Instructions -/

/-- A command word is a rejection while busy and for TAGSIZE without the unit, else an acceptance. -/
theorem exec_command_accepts_or_rejects {i : Instr} (s : State) (hi : i.isCommand = true) :
    ((s.fsm ≠ .idle ∨ ∃ g, i = .tagsize g ∧ s.params.id3Unit = .absent) ∧
      exec i s = .next (reject s)) ∨
    (s.fsm = .idle ∧ (¬∃ g, i = .tagsize g ∧ s.params.id3Unit = .absent) ∧
      ∃ t, exec i s = accept t s) := by
  rcases exec_command s hi with h | ⟨hidle, hne, c, l, he, -⟩ | ⟨hidle, hunit, he⟩
  · exact .inl h
  · exact .inr ⟨hidle, fun ⟨g, hg, _⟩ => hne g hg, _, he⟩
  · exact .inr ⟨hidle, fun ⟨_, _, habsent⟩ => by simp [hunit] at habsent, _, he⟩

/-- Settles O24: header words and rejections always answer, and an acceptance is refused exactly when
BUF_LEN exceeds the buffer's size. -/
theorem instructionsAnswerUnlessBufLenExceedsTheBuffer :
    Obligations.InstructionsAnswerUnlessBufLenExceedsTheBuffer := by
  intro i s
  cases hi : i.isCommand with
  | false => exact ⟨fun _ => ⟨_, exec_header s hi⟩, fun ⟨hcmd, _⟩ => nomatch hcmd⟩
  | true =>
    rcases exec_command_accepts_or_rejects s hi with ⟨hwhy, he⟩ | ⟨hidle, hunit, t, he⟩
    · refine ⟨fun _ => ⟨_, he⟩, fun ⟨_, hidle, _, hunit⟩ => ?_⟩
      exact absurd hwhy (not_or.mpr ⟨not_not.mpr hidle, hunit⟩)
    · rw [he]
      refine ⟨fun h => ?_, fun ⟨_, _, hlen, _⟩ => if_pos hlen⟩
      rcases h with hcmd | hbusy | hlen | habsent
      · cases hcmd
      · exact absurd hidle hbusy
      · exact ⟨t, accept_of_le hlen⟩
      · exact absurd habsent hunit

/-! ### Events -/

/-- The FSM's turn answers when a running command's length is inside the buffer (70 R230): every byte
it may read is there. -/
theorem fsmStep_answers {s : State} (h : s.busy = true → bufferCovers s = true) :
    ∃ t, fsmStep s = .next t := by
  cases hf : s.fsm with
  | idle => exact ⟨s, fsmStep_idle hf⟩
  | scan =>
    have hlen := of_decide_eq_true (h ((busy_iff s).mpr (by simp [hf])))
    obtain ⟨hd, hh⟩ := headerAt_isSome hlen s.cur.toNat
    exact ⟨_, fsmStep_scan hf hh⟩
  | tag =>
    have hlen := of_decide_eq_true (h ((busy_iff s).mpr (by simp [hf])))
    obtain ⟨v, hv⟩ := tagSizeOf_isSome hlen
    exact ⟨_, fsmStep_tag hf hv⟩

/-- A host write that keeps the duties answers (10 R21, 70 R230). -/
theorem hostWrite_answers {offset width : Nat} {v : Word} {s : State}
    (h : keepsDuties (.write offset width v) s = true) :
    ∃ t, hostWrite offset width v s = .next t := by
  cases hreg : regAt offset width with
  | none => simp [keepsDuties, hreg] at h
  | some r =>
    by_cases hr : r = .cmd
    · subst hr
      obtain ⟨rfl, rfl⟩ := regAt_eq_cmd hreg
      refine hostWrite_cmd_answers ?_
      simpa [keepsDuties, hreg] using h
    · exact ⟨_, hostWrite_of_regAt v s hr hreg⟩

/-- An event that keeps the duties is answered by its agent's move. -/
theorem handleInput_answers {e : Input} {s : State}
    (hcovers : s.busy = true → bufferCovers s = true) (h : keepsDuties e s = true) :
    ∃ t, handleInput e s = .next t := by
  cases e with
  | write offset width v => exact hostWrite_answers h
  | read offset width =>
    obtain ⟨r, hr⟩ := Option.isSome_iff_exists.mp h
    exact ⟨_, hostRead_of_regAt s hr⟩
  | wait =>
    simp only [handleInput, hostPoll]
    split <;> exact ⟨_, rfl⟩
  | fsm => exact fsmStep_answers hcovers
  | reset => exact ⟨_, rfl⟩
  | newBuffer size =>
    have hguard : (s.busy && s.len != 0) = false := Bool.eq_false_of_not_eq_true' h
    exact ⟨_, if_neg (Bool.eq_false_iff.mp hguard)⟩
  | fill o b =>
    obtain ⟨hduty, hsize⟩ := Bool.and_eq_true_iff.mp h
    have hguard : (s.busy && decide (o.toNat < s.len.toNat)) = false :=
      Bool.eq_false_of_not_eq_true' hduty
    exact ⟨_, (if_neg (Bool.eq_false_iff.mp hguard)).trans (if_pos (of_decide_eq_true hsize))⟩

/-- The duties of an event do not depend on the events behind it. -/
theorem keepsDuties_inputs (e : Input) (s : State) (ins : List Input) :
    keepsDuties e { s with inputs := ins } = keepsDuties e s := by
  cases e <;> rfl

/-- Settles O47: a step is the FSM's turn or the next event's move, and each answers. -/
theorem dutifulStepsAlwaysAnswer : Obligations.DutifulStepsAlwaysAnswer := by
  intro s hcovers hduty
  cases hin : s.inputs with
  | nil =>
    rw [step_nil hin]
    exact fsmStep_answers hcovers
  | cons e rest =>
    rw [step_cons hin]
    refine handleInput_answers hcovers ?_
    rw [keepsDuties_inputs]
    exact hduty e rest hin

end Sys2Proof.Machine
end

section
/-!
PROOFS. The reset event (70 R220), and what the loading collaborator's two moves do where they break no
duty (70 R222, 20 R72): each move's next state, and the reads of the buffer it leaves.
-/

namespace Sys2Proof.Machine

/-! ### The reset event -/

/-- After reset every register reads 0, whatever ran before (10 R50, 70 R220). -/
@[simp] theorem readReg_applyReset (r : Reg) (s : State) : readReg r (applyReset s) = 0 := by
  cases r with
  | status => exact (rfl : State.reset.statusWord = 0)
  | tagSize => exact ite_self _
  | _ => rfl

/-- Settles O39: the step is `applyReset`, which clears each register and keeps tables and buffer. -/
theorem resetEventClearsEveryRegister : Obligations.ResetEventClearsEveryRegister := by
  intro s rest hin
  exact ⟨applyReset { s with inputs := rest }, step_cons hin, fun r => readReg_applyReset r _,
    rfl, rfl, rfl, rfl, rfl, rfl, rfl, rfl, rfl⟩

/-! ### The loading collaborator's moves -/

/-- A byte inside the buffer is filled where no running command may read it (20 R72). -/
theorem fillByte_inside {s : State} {o : Word} (b : Byte)
    (hduty : s.busy = false ∨ s.len.toNat ≤ o.toNat) (ho : o.toNat < s.bufSize.toNat) :
    fillByte o b s = .next { s with mem := Memory.write s.mem o.toNat b } := by
  have hguard : (s.busy && decide (o.toNat < s.len.toNat)) = false :=
    Bool.and_eq_false_iff.mpr (hduty.imp_right fun hlen => decide_eq_false (Nat.not_lt.mpr hlen))
  rw [fillByte, hguard, if_neg Bool.false_ne_true, if_pos ho]

/-- A buffer is taken when no running command has a byte of the old one left to read (20 R72). -/
theorem takeBuffer_allowed {s : State} (size : Word) (hduty : s.busy = false ∨ s.len = 0) :
    takeBuffer size s =
      .next { s with mem := [], bufSize := size, bufEpoch := s.bufEpoch + 1 } := by
  have hguard : (s.busy && s.len != 0) = false :=
    Bool.and_eq_false_iff.mpr (hduty.imp_right bne_eq_false_iff_eq.mpr)
  rw [takeBuffer, hguard, if_neg Bool.false_ne_true]

/-- A byte filled inside the buffer reads back as filled. -/
theorem memRead_fill_same {s : State} {o : Nat} (b : Byte) (ho : o < s.bufSize.toNat) :
    memRead { s with mem := Memory.write s.mem o b } o = some b :=
  memRead_of_read ho (Memory.read_write_same s.mem o b)

/-- Filling a byte leaves the read of every other offset as it was. -/
theorem memRead_fill_other (s : State) {o a : Nat} (b : Byte) (ha : a ≠ o) :
    memRead { s with mem := Memory.write s.mem o b } a = memRead s a := by
  simp only [memRead, Memory.read_write_other s.mem o a b ha]

/-- Of a buffer with no byte filled, the offsets below its size read as free values (60 R203). -/
theorem memRead_unfilled {s : State} (hmem : s.mem = []) (a : Nat) :
    memRead s a =
      if a < s.bufSize.toNat then some (Config.unfilledByte s.bufEpoch a) else none := by
  simp only [memRead, hmem, Memory.read, Memory.unlisted]

/-- Settles O59: each move answers its next state, whose reads the three lemmas above give. -/
theorem loaderFillsBytesAndHandsOverBuffers :
    Obligations.LoaderFillsBytesAndHandsOverBuffers := by
  intro s rest
  refine ⟨fun o b hin ho hduty => ?_, fun size hin hduty => ?_⟩
  · have hstep := (step_cons hin).trans
      (fillByte_inside (s := { s with inputs := rest }) b hduty ho)
    exact ⟨_, _, hstep, rfl, memRead_fill_same (s := { s with inputs := rest }) b ho,
      fun a ha => memRead_fill_other { s with inputs := rest } b ha⟩
  · have hstep := (step_cons hin).trans
      (takeBuffer_allowed (s := { s with inputs := rest }) size hduty)
    exact ⟨_, _, _, hstep, rfl, memRead_unfilled rfl⟩

end Sys2Proof.Machine
end
